-- ==== Sys2Proof/Word.lean ====
section
/-! DEFINITION. The widths of the block's values (spec/00_scope.md R8, spec/30_encoding.md R70). -/

namespace Sys2Proof

/-- Every arithmetic value and every host register: an unsigned 32-bit pattern (R8). -/
abbrev Word := BitVec 32

/-- A byte: an unsigned 8-bit pattern (R8). -/
abbrev Byte := BitVec 8

/-- A transaction word `TW`, 37 bits (R70). -/
abbrev Tw := BitVec 37

end Sys2Proof
end

