-- ==== Sys2Proof/Config.lean ====
section
/-! DEFINITION. What an instance of the block fixes: the parameter KEY_CAP (spec/00_scope.md R6, R7). -/

namespace Sys2Proof

/-- The one open parameter of the hardware. R6 bounds it by 0 <= KEY_CAP <= 2^32 - 1, which is
exactly the range of a `Word`, so every `Config` is a legal one. It is an argument of the model:
State carries it so that `step` can reach it, and nothing writes it (log 1). -/
structure Config where
  /-- KEY_CAP, the capacity of the key buffer in bytes. -/
  keyCap : Word
  deriving DecidableEq, Repr

/-- DESIGN CHOICE (log 1): the capacity State.reset carries, the default R6 suggests "where a number
is wanted". No statement rests on it. -/
def Config.suggested : Config := ⟨4096⟩

end Sys2Proof
end

