-- ==== Sys2Proof/Syntax.lean ====
section
/-! DEFINITION. The block's operations: one constructor per row of spec/opcode_table.json, host transactions
first (spec/30_encoding.md R75), engine rules after them (R80); and the engine's phases (spec/10_state.md R34). -/

namespace Sys2Proof

/-- The six values of the control register `ph` (10_state.md R34). Codes 110 and 111 of R80 are
unrepresentable, as 93_implementation_defined.md U10 asks. -/
inductive Phase where
  | idle
  | filt
  | init
  | body
  | tail
  | final
  deriving DecidableEq, Repr

/-- One constructor per row of the opcode table. A read carries its `wdata` field although R75 ignores
it, and a refused write carries what it was refused with, so that a decoded transaction still spells
its own word (log 15). -/
inductive Instr where
  /-- `nop` (R163). -/
  | nop
  /-- `start` (R164). -/
  | start
  /-- `start.rw` (R165). -/
  | startRw
  /-- `clear` (R166). -/
  | clear
  /-- `clrerr` (R167). -/
  | clrerr
  /-- `seed imm32` (R168). -/
  | seed (imm32 : Word)
  /-- `push imm8` (R169). -/
  | push (imm8 : Byte)
  /-- `rd.status` (R170). -/
  | rdStatus (ignored : Word)
  /-- `rd.seed` (R171). -/
  | rdSeed (ignored : Word)
  /-- `rd.keylen` (R172). -/
  | rdKeylen (ignored : Word)
  /-- `rd.hash` (R173). -/
  | rdHash (ignored : Word)
  /-- `rd.keycap` (R174). -/
  | rdKeycap (ignored : Word)
  /-- `cmd.illegal` (R177): a write to CMD of no legal command word. -/
  | cmdIllegal (wdata : Word)
  /-- `push.bad` (R178): a write to KEYDATA with one of bits 31:8 set. -/
  | pushBad (wdata : Word)
  /-- `wr.bad` to STATUS (R176). -/
  | wrBadR1 (wdata : Word)
  /-- `wr.bad` to KEYLEN (R176). -/
  | wrBadR4 (wdata : Word)
  /-- `wr.bad` to HASH (R176). -/
  | wrBadR5 (wdata : Word)
  /-- `wr.bad` to KEYCAP (R176). -/
  | wrBadR6 (wdata : Word)
  /-- `wr.bad` to reserved register 7 (R176). -/
  | wrBadR7 (wdata : Word)
  /-- `wr.bad` to reserved registers 8 to 15 (R176). -/
  | wrBadR8to15 (reg : BitVec 4) (wdata : Word)
  /-- `rd.zero` of CMD (R175). -/
  | rdZeroR0 (ignored : Word)
  /-- `rd.zero` of KEYDATA (R175). -/
  | rdZeroR3 (ignored : Word)
  /-- `rd.zero` of reserved register 7 (R175). -/
  | rdZeroR7 (ignored : Word)
  /-- `rd.zero` of reserved registers 8 to 15 (R175). -/
  | rdZeroR8to15 (reg : BitVec 4) (ignored : Word)
  /-- `idle` (R132): the engine has no step. -/
  | idle
  /-- `filt.byte` (R114). -/
  | filtByte
  /-- `filt.exit` (R115). -/
  | filtExit
  /-- `init` (R127). -/
  | init
  /-- `body.chunk` (R128). -/
  | bodyChunk
  /-- `body.exit` (R129). -/
  | bodyExit
  /-- `tail` (R130). -/
  | tail
  /-- `final` (R131). -/
  | final
  deriving DecidableEq, Repr

end Sys2Proof
end

