-- ==== Sys2Proof/WellFormed.lean ====
section
/-! DEFINITION. Which instructions spell a row of the opcode table: the operand conditions of the fallback rows and
of the rows that cover several registers (spec/30_encoding.md R72, R73, R75). -/

namespace Sys2Proof

/-- The five legal command words (R72). -/
def legalCommands : List Word := [0x00000000, 0x00000001, 0x00000101, 0x00000002, 0x00000003]

/-- Bits 31:8 of a KEYDATA word are all zero: the word spells a byte (R73). -/
def spellsByte (wdata : Word) : Bool := wdata.extractLsb' 8 24 == 0

/-- The operand conditions of R75: `cmd.illegal` is no legal command word, `push.bad` spells no byte,
and the rows `r8_15` name a register from 8 up. Every other row admits every operand. -/
def Instr.wf : Instr → Bool
  | .nop => true
  | .start => true
  | .startRw => true
  | .clear => true
  | .clrerr => true
  | .seed _ => true
  | .push _ => true
  | .rdStatus _ => true
  | .rdSeed _ => true
  | .rdKeylen _ => true
  | .rdHash _ => true
  | .rdKeycap _ => true
  | .cmdIllegal wdata => !legalCommands.contains wdata
  | .pushBad wdata => !spellsByte wdata
  | .wrBadR1 _ => true
  | .wrBadR4 _ => true
  | .wrBadR5 _ => true
  | .wrBadR6 _ => true
  | .wrBadR7 _ => true
  | .wrBadR8to15 reg _ => decide (8 ≤ reg)
  | .rdZeroR0 _ => true
  | .rdZeroR3 _ => true
  | .rdZeroR7 _ => true
  | .rdZeroR8to15 reg _ => decide (8 ≤ reg)
  | .idle => true
  | .filtByte => true
  | .filtExit => true
  | .init => true
  | .bodyChunk => true
  | .bodyExit => true
  | .tail => true
  | .final => true

end Sys2Proof
end

