-- ==== Sys2Proof/Decode.lean ====
section
/-! DEFINITION. The decoder of transaction words (spec/30_encoding.md R70 to R76), the phase labels (R80), and the
encoder written from the same table. Decoding needs no state (R71). -/

namespace Sys2Proof

/-! ### The fields of a transaction word (R70) -/

/-- `TW[36]`: 1 = write, 0 = read. -/
def twWe (tw : Tw) : Bool := tw.getLsbD 36

/-- `TW[35:32]`, the register index. -/
def twReg (tw : Tw) : BitVec 4 := tw.extractLsb' 32 4

/-- `TW[31:0]`, the data word of a write. -/
def twWdata (tw : Tw) : Word := tw.extractLsb' 0 32

/-- `TW` is the concatenation of `we`, `reg` and `wdata` (R70). -/
def makeTw (we : Bool) (reg : BitVec 4) (wdata : Word) : Tw := BitVec.ofBool we ++ reg ++ wdata

/-! ### Decoding (R76) -/

/-- A read is told by its register alone. -/
def decodeRead (reg : BitVec 4) (wdata : Word) : Instr :=
  if reg = 0 then .rdZeroR0 wdata
  else if reg = 1 then .rdStatus wdata
  else if reg = 2 then .rdSeed wdata
  else if reg = 3 then .rdZeroR3 wdata
  else if reg = 4 then .rdKeylen wdata
  else if reg = 5 then .rdHash wdata
  else if reg = 6 then .rdKeycap wdata
  else if reg = 7 then .rdZeroR7 wdata
  else .rdZeroR8to15 reg wdata

/-- The command word (R72): five exact words, every other one is illegal. -/
def decodeCommand (wdata : Word) : Instr :=
  if wdata = 0x00000000 then .nop
  else if wdata = 0x00000001 then .start
  else if wdata = 0x00000101 then .startRw
  else if wdata = 0x00000002 then .clear
  else if wdata = 0x00000003 then .clrerr
  else .cmdIllegal wdata

/-- The key byte (R73): bits 7:0 where bits 31:8 are zero; never truncated from a wider value. -/
def decodeKeyData (wdata : Word) : Instr :=
  if wdata.extractLsb' 8 24 = 0 then .push (wdata.extractLsb' 0 8) else .pushBad wdata

/-- A write, by its register (R76). -/
def decodeWrite (reg : BitVec 4) (wdata : Word) : Instr :=
  if reg = 0 then decodeCommand wdata
  else if reg = 1 then .wrBadR1 wdata
  else if reg = 2 then .seed wdata
  else if reg = 3 then decodeKeyData wdata
  else if reg = 4 then .wrBadR4 wdata
  else if reg = 5 then .wrBadR5 wdata
  else if reg = 6 then .wrBadR6 wdata
  else if reg = 7 then .wrBadR7 wdata
  else .wrBadR8to15 reg wdata

/-- The decode procedure R76: total on every transaction word. -/
def decodeTw (tw : Tw) : Instr :=
  if twWe tw then decodeWrite (twReg tw) (twWdata tw) else decodeRead (twReg tw) (twWdata tw)

/-! ### The phase labels (R80) -/

/-- The 3-bit label of each phase. -/
def phaseCode : Phase → BitVec 3
  | .idle => 0b000
  | .filt => 0b001
  | .init => 0b010
  | .body => 0b011
  | .tail => 0b100
  | .final => 0b101

/-- The engine rule a label names. Labels 001 and 011 stand for two rows each, the loop's body and its
exit; `loop` says which (R34's loop tests, log 11). Labels 110 and 111 name nothing. -/
def decodePhase (code : BitVec 3) (loop : Bool) : Option Instr :=
  if code = 0b000 then some .idle
  else if code = 0b001 then some (if loop then .filtByte else .filtExit)
  else if code = 0b010 then some .init
  else if code = 0b011 then some (if loop then .bodyChunk else .bodyExit)
  else if code = 0b100 then some .tail
  else if code = 0b101 then some .final
  else none

/-! ### Words of the opcode table -/

/-- Why a word spells no operation. Both are safe: nothing runs. -/
inductive DecodeError where
  /-- A word of transaction format with a bit above bit 36 set (R70: `TW` has 37 bits). -/
  | notATransactionWord
  /-- A phase label above 101 (R80). -/
  | unusedPhaseCode
  deriving DecidableEq, Repr

/-- The operation of a table word of `nbits` bits: the rows of fewer than 37 bits are phase labels, the
others transaction words. A label shared by a loop's body and its exit reads as the body, the table's
first row of that word (log 11). -/
def decodeBits (nbits w : Nat) : Except DecodeError Instr :=
  if nbits < 37 then
    if w < 8 then
      match decodePhase (BitVec.ofNat 3 w) true with
      | some i => .ok i
      | none => .error .unusedPhaseCode
    else .error .unusedPhaseCode
  else if w < 2 ^ 37 then .ok (decodeTw (BitVec.ofNat 37 w))
  else .error .notATransactionWord

/-- What the decoder reads from a word numbered as spec/opcode_table.json numbers it. -/
def decodeTableWord (nbits w : Nat) : Option Instr :=
  match decodeBits nbits w with
  | .ok i => some i
  | .error _ => none

/-! ### Encoding (R75, R80) -/

/-- `zext_32` (R12): nothing is ever sign-extended in this block. -/
def zext32 (b : Byte) : Word := b.setWidth 32

/-- The two formats of the opcode table. -/
inductive Code where
  /-- Format `TW`: a transaction word. -/
  | tw (word : Tw)
  /-- Format `PH`: a phase label. -/
  | ph (label : BitVec 3)
  deriving DecidableEq, Repr

/-- The words of each row, from the `TW` pattern column of R75 and the label column of R80. -/
def encode : Instr → Code
  | .nop => .tw (makeTw true 0 0x00000000)
  | .start => .tw (makeTw true 0 0x00000001)
  | .startRw => .tw (makeTw true 0 0x00000101)
  | .clear => .tw (makeTw true 0 0x00000002)
  | .clrerr => .tw (makeTw true 0 0x00000003)
  | .seed imm32 => .tw (makeTw true 2 imm32)
  | .push imm8 => .tw (makeTw true 3 (zext32 imm8))
  | .rdStatus w => .tw (makeTw false 1 w)
  | .rdSeed w => .tw (makeTw false 2 w)
  | .rdKeylen w => .tw (makeTw false 4 w)
  | .rdHash w => .tw (makeTw false 5 w)
  | .rdKeycap w => .tw (makeTw false 6 w)
  | .cmdIllegal w => .tw (makeTw true 0 w)
  | .pushBad w => .tw (makeTw true 3 w)
  | .wrBadR1 w => .tw (makeTw true 1 w)
  | .wrBadR4 w => .tw (makeTw true 4 w)
  | .wrBadR5 w => .tw (makeTw true 5 w)
  | .wrBadR6 w => .tw (makeTw true 6 w)
  | .wrBadR7 w => .tw (makeTw true 7 w)
  | .wrBadR8to15 reg w => .tw (makeTw true reg w)
  | .rdZeroR0 w => .tw (makeTw false 0 w)
  | .rdZeroR3 w => .tw (makeTw false 3 w)
  | .rdZeroR7 w => .tw (makeTw false 7 w)
  | .rdZeroR8to15 reg w => .tw (makeTw false reg w)
  | .idle => .ph (phaseCode .idle)
  | .filtByte => .ph (phaseCode .filt)
  | .filtExit => .ph (phaseCode .filt)
  | .init => .ph (phaseCode .init)
  | .bodyChunk => .ph (phaseCode .body)
  | .bodyExit => .ph (phaseCode .body)
  | .tail => .ph (phaseCode .tail)
  | .final => .ph (phaseCode .final)

/-- Whether a row is its loop's body; only the rows of a shared label need it (R34, R80). -/
def loopBody : Instr → Bool
  | .filtByte => true
  | .bodyChunk => true
  | _ => false

/-- Decoding either format, the loop test given beside the label. -/
def decodeCode (loop : Bool) : Code → Option Instr
  | .tw word => some (decodeTw word)
  | .ph label => decodePhase label loop

end Sys2Proof
end

