-- ==== Sys2Proof/Machine/Datapath.lean ====
section
/-! DEFINITION. The arithmetic of the block and the function it computes, as mathematics on words and byte sequences:
spec/40_u32_multiply_modular.md, spec/41_whitespace_filter.md section 2, spec/42_hash_engine.md section 1. -/

namespace Sys2Proof.Machine

/-! ### Constants (R5) -/

/-- `M`, the multiplier of every mixing multiply. -/
def mixMultiplier : Word := 0x5bd1e995

/-- `R`, the shift inside the chunk mix. -/
def mixShift : Nat := 24

/-- `S1`, the first shift of the final avalanche. -/
def avalancheShift1 : Nat := 13

/-- `S2`, the second shift of the final avalanche. -/
def avalancheShift2 : Nat := 15

/-- `WS`: tab, line feed, carriage return, space. -/
def whitespace : List Byte := [9, 10, 13, 32]

/-! ### The multiplier and the bit operations (R91 to R98) -/

/-- `mul32` (R91): the low 32 bits of the product of two unsigned numbers. -/
def mul32 (a b : Word) : Word := BitVec.ofNat 32 (a.toNat * b.toNat)

/-- The reference structure of the multiplier (R92): 16-bit halves, the high product never formed. -/
def mul32Split (a b : Word) : Word :=
  let aHi := (a.extractLsb' 16 16).toNat
  let aLo := (a.extractLsb' 0 16).toNat
  let bHi := (b.extractLsb' 16 16).toNat
  let bLo := (b.extractLsb' 0 16).toNat
  let lo := aLo * bLo
  let cross := aHi * bLo + aLo * bHi
  let crossT := (cross * 2 ^ 16) % 2 ^ 32
  BitVec.ofNat 32 (lo + crossT)

/-- `shr` (R97): logical right shift, zero fill. R97 defines it for `n` to 31; for more see log 22. -/
def shr (a : Word) (n : Nat) : Word := a >>> n

/-- `shl` (R98): left shift modulo 2^32. R98 defines it for `n` to 31; for more see log 22. -/
def shl (a : Word) (n : Nat) : Word := a <<< n

/-- The compound `x xor shr(x, n)` (R95). -/
def xorShr (x : Word) (n : Nat) : Word := x ^^^ shr x n

/-- Little-endian assembly of four bytes (R52): the first byte is the least significant. -/
def wordOfBytes (b0 b1 b2 b3 : Byte) : Word :=
  zext32 b0 ||| shl (zext32 b1) 8 ||| shl (zext32 b2) 16 ||| shl (zext32 b3) 24

/-! ### The whitespace filter (R111, R112) -/

/-- `IsWs`: exactly the four bytes of `WS`. -/
def isWs (b : Byte) : Bool := whitespace.contains b

/-- `Filter`: the bytes that are not whitespace, in their order. -/
def filterWs (s : List Byte) : List Byte := s.filter (fun b => !isWs b)

/-! ### The hash function (R125, R126) -/

/-- `MixK`, steps 3b to 3d. -/
def mixK (w : Word) : Word := mul32 (xorShr (mul32 w mixMultiplier) mixShift) mixMultiplier

/-- `BodyStep`, steps 3b to 3e: the multiply applies to `h` only, then the xor. -/
def bodyStep (h w : Word) : Word := mul32 h mixMultiplier ^^^ mixK w

/-- `Tail`, step 4, on the 0 to 3 remaining bytes in sequence order; no byte, no multiply. R125 defines
it for at most three bytes, and R126 hands it no more: any further byte is not looked at. -/
def tailMix (h : Word) : List Byte → Word
  | [] => h
  | [t0] => mul32 (h ^^^ zext32 t0) mixMultiplier
  | [t0, t1] => mul32 ((h ^^^ shl (zext32 t1) 8) ^^^ zext32 t0) mixMultiplier
  | t0 :: t1 :: t2 :: _ =>
    mul32 (((h ^^^ shl (zext32 t2) 16) ^^^ shl (zext32 t1) 8) ^^^ zext32 t0) mixMultiplier

/-- `Avalanche`, step 5. -/
def avalanche (h : Word) : Word :=
  xorShr (mul32 (xorShr h avalancheShift1) mixMultiplier) avalancheShift2

/-- `word(s, a)` of R126: the little-endian word of `s[a..a+3]`. R126 uses it inside the sequence only. -/
def wordAt (s : List Byte) (a : Nat) : Word :=
  wordOfBytes (s.getD a 0) (s.getD (a + 1) 0) (s.getD (a + 2) 0) (s.getD (a + 3) 0)

/-- `Murmur2` (R126): `h_0`, then one BodyStep per whole chunk, then the tail, then the avalanche. -/
def murmur2 (s : List Byte) (seed : Word) : Word :=
  let n := s.length
  let q := n / 4
  let h0 := seed ^^^ BitVec.ofNat 32 n
  let hq := (List.range q).foldl (fun h c => bodyStep h (wordAt s (4 * c))) h0
  avalanche (tailMix hq (s.drop (4 * q)))

/-- `Hash(key, seed, rw)` (R126). -/
def hashOf (key : List Byte) (seed : Word) (rw : Bool) : Word :=
  murmur2 (if rw then filterWs key else key) seed

end Sys2Proof.Machine
end

