-- ==== Sys2Proof/Machine/State.lean ====
section
/-! DEFINITION. The state of one instance (spec/10_state.md R20), its value after reset (R40), and the reasons a step
of the model can stop. -/

namespace Sys2Proof.Machine

/-- The cause field ERRCODE as a closed type (spec/60_exceptions.md R201; spec/93_implementation_defined.md
U9 asks that codes 6 to 15 be unrepresentable; log 18). -/
inductive ErrCode where
  /-- 0: no error stands. -/
  | none
  /-- 1: a key element outside 0 to 255. -/
  | badByte
  /-- 2: a push on a full buffer. -/
  | keyOverflow
  /-- 3: a write to CMD, SEED or KEYDATA during a run. -/
  | busyWrite
  /-- 4: an illegal command word. -/
  | illegalCmd
  /-- 5: a write to a read-only or reserved register. -/
  | badAccess
  deriving DecidableEq, Repr

/-- Which agent takes a step, and with what (spec/00_scope.md R9). -/
inductive Turn where
  /-- The host: one register transaction, spelled as its transaction word (R70). -/
  | host (tw : Tw)
  /-- The engine: one phase step. -/
  | engine
  /-- The environment asserts `rst` (R230). -/
  | reset
  deriving DecidableEq, Repr

/-- A byte memory: cells at strictly rising indices; an index not listed holds no value (log 3). -/
abbrev Memory := List Host.Cell

/-- The two byte memories (R50). -/
inductive Space where
  /-- `KEY`, the key buffer. -/
  | key
  /-- `FBUF`, the filter's buffer. -/
  | fbuf
  deriving DecidableEq, Repr

/-- The state tuple of R20, and three fields of the model's own at the end. -/
structure State where
  /-- `ph`, the control register (R34). -/
  ph : Phase
  /-- `SEED` (R24). -/
  seed : Word
  /-- `KEYLEN` (R26). -/
  keylen : Word
  /-- `HASH` (R27). -/
  hash : Word
  /-- `DONE` (R23, R38). -/
  done : Bool
  /-- `ERR` (R23, R38). -/
  err : Bool
  /-- `ERRCODE` (R23, R201). -/
  errCode : ErrCode
  /-- `rm`, the flag latched for the run (R33). -/
  rm : Bool
  /-- `h`, the hash state (R30). -/
  h : Word
  /-- `len`, the length of the hashed sequence (R31). -/
  len : Word
  /-- `i`, the read position (R31). -/
  i : Word
  /-- `rem`, the remaining length (R31). -/
  rem : Word
  /-- `j`, the filter's read position (R32). -/
  j : Word
  /-- `flen`, the number of bytes in `FBUF` (R32). -/
  flen : Word
  /-- `KEY` (R36). -/
  key : Memory
  /-- `FBUF` (R37). -/
  fbuf : Memory
  /-- The model's own: the parameter KEY_CAP, constant for the life of the instance (R6, R28; log 1). -/
  config : Config
  /-- The model's own: what a read taken in the last step returned (`rsp_rdata`, R160; log 6). -/
  reply : Option Word
  /-- The model's own: the turns to come, the next one first (R9; log 4). -/
  agenda : List Turn
  deriving DecidableEq, Repr

/-- Why the machine stops. No state reachable from reset raises any of them (R57, R136), and each is safe:
the model stops where the spec gives no rule. -/
inductive Fault where
  /-- A read of `KEY` at an index that holds no value (R36, U1): raised by filt.byte, body.chunk, tail. Safe (log 3). -/
  | keyNoValue
  /-- A read of `FBUF` at an index that holds no value (R37, U2): raised by body.chunk, tail. Safe (log 3). -/
  | fbufNoValue
  /-- A write at an index at or above KEY_CAP, which does not exist (R36, R37): raised by push, filt.byte. Safe (log 10). -/
  | noSuchIndex
  /-- An engine rule asked for in a state that does not enable it: raised by every engine meaning, never by a
  step, which picks the enabled rule. Safe (log 8). -/
  | ruleNotEnabled
  /-- The engine's turn in phase FILT with `j` above KEYLEN, where no rule is enabled: raised by step. Safe (log 9). -/
  | noRuleEnabled
  deriving DecidableEq, Repr

/-- Why an instruction is refused. -/
inductive Refusal where
  /-- An instruction with no meaning in the model: raised by exec's arm. Safe. No arm raises it: every row has its meaning. -/
  | notModelled (mnemonic : String)
  deriving DecidableEq, Repr

/-- The state after reset (R40). `rm`, `h`, `len`, `i`, `rem`, `j`, `flen` are unspecified there and hold
zero here, DESIGN CHOICE (log 2); `KEY` and `FBUF` are unspecified and list nothing (log 3); the model's own
fields hold what logs 1, 4 and 6 say. -/
def State.reset : State where
  ph := .idle
  seed := 0
  keylen := 0
  hash := 0
  done := false
  err := false
  errCode := .none
  rm := false
  h := 0
  len := 0
  i := 0
  rem := 0
  j := 0
  flen := 0
  key := []
  fbuf := []
  config := .suggested
  reply := .none
  agenda := []

end Sys2Proof.Machine
end

