-- ==== Sys2Proof/Machine/Flags.lean ====
section
/-! DEFINITION. The status flags and the STATUS word, views of the state (spec/10_state.md R23, R38). The datapath
has no condition codes. -/

namespace Sys2Proof.Machine

/-- BUSY: 1 exactly when `ph` is not IDLE; derived, not stored (R23). -/
def busy (s : State) : Bool := decide (s.ph ≠ .idle)

/-- The number of a cause (R201). -/
def errNumber : ErrCode → BitVec 4
  | .none => 0
  | .badByte => 1
  | .keyOverflow => 2
  | .busyWrite => 3
  | .illegalCmd => 4
  | .badAccess => 5

/-- STATUS (R170): bits 7:4 ERRCODE, bit 2 ERR, bit 1 DONE, bit 0 BUSY, every other bit 0. -/
def statusWord (s : State) : Word :=
  (0 : BitVec 24) ++ errNumber s.errCode ++ (0 : BitVec 1) ++ BitVec.ofBool s.err ++ BitVec.ofBool s.done
    ++ BitVec.ofBool (busy s)

end Sys2Proof.Machine
end

