-- ==== Sys2Proof/Machine/Ops.lean ====
section
/-! DEFINITION. The named operations on memory, registers and the error mechanism that the meanings share
(spec/20_memory.md, spec/43_host_commands.md R161, R162, spec/60_exceptions.md R202, R211, spec/70_reset_and_hazards.md R230). -/

namespace Sys2Proof.Machine

/-! ### A byte memory -/

/-- The canonical form: indices strictly rising. An index not listed has no value, so no cell can equal
what an unlisted index reads as. -/
abbrev Memory.wf (m : Memory) : Prop := m.Pairwise (fun c d => c.1 < d.1)

/-- The byte at an index, if the index holds one. -/
def Memory.read : Memory → Nat → Option Byte
  | [], _ => none
  | c :: m, a => if a = c.1 then some c.2 else Memory.read m a

/-- Put a byte at an index, keeping the canonical form. -/
def Memory.write : Memory → Nat → Byte → Memory
  | [], a, b => [(a, b)]
  | c :: m, a, b =>
    if a < c.1 then (a, b) :: c :: m
    else if a = c.1 then (a, b) :: m
    else c :: Memory.write m a b

/-! ### The two address spaces of bytes (R36, R37, R50) -/

/-- The cells of a space. -/
def cells : Space → State → Memory
  | .key, s => s.key
  | .fbuf, s => s.fbuf

/-- How many bytes of a space hold a value: indices below KEYLEN, indices below `flen`. -/
def liveLength : Space → State → Nat
  | .key, s => s.keylen.toNat
  | .fbuf, s => s.flen.toNat

/-- The fault of reading an index that holds no value (U1, U2; log 3). -/
def noValue : Space → Fault
  | .key => .keyNoValue
  | .fbuf => .fbufNoValue

/-- `MemRead(S, a, 1)` as a byte; nothing at an index that holds no value. -/
def readByte (sp : Space) (a : Nat) (s : State) : Option Byte :=
  if a < liveLength sp s then Memory.read (cells sp s) a else none

/-- `MemRead(S, a, 4)`, little-endian (R52). -/
def readWord (sp : Space) (a : Nat) (s : State) : Option Word :=
  match readByte sp a s, readByte sp (a + 1) s, readByte sp (a + 2) s, readByte sp (a + 3) s with
  | some b0, some b1, some b2, some b3 => some (wordOfBytes b0 b1 b2 b3)
  | _, _, _, _ => none

/-- `MemWrite(KEY, a, 1, b)`; nothing at an index that does not exist (log 10). -/
def writeKey (a : Nat) (b : Byte) (s : State) : Option State :=
  if a < s.config.keyCap.toNat then some { s with key := Memory.write s.key a b } else none

/-- `MemWrite(FBUF, a, 1, b)`; nothing at an index that does not exist (log 10). -/
def writeFbuf (a : Nat) (b : Byte) (s : State) : Option State :=
  if a < s.config.keyCap.toNat then some { s with fbuf := Memory.write s.fbuf a b } else none

/-! ### The error mechanism (R202, R211) -/

/-- `raise Err(code)`: the first cause is kept; nothing else is written. R202 defines it for the codes 1 to 5.
DESIGN CHOICE (log 24): on `.none`, which no meaning raises, it runs the same lines. -/
def raiseErr (c : ErrCode) (s : State) : State :=
  if s.err then s else { s with err := true, errCode := c }

/-- The signal withdrawn (R167, R211): nothing is restored, because nothing was saved. -/
def ackErr (s : State) : State := { s with err := false, errCode := .none }

/-- Test 2 of R162: a write to CMD, SEED or KEYDATA during a run raises BUSY_WRITE and does nothing else. -/
def whenIdle (s : State) (accepted : State → Host.Outcome State Fault Refusal) :
    Host.Outcome State Fault Refusal :=
  if busy s then .next (raiseErr .busyWrite s) else accepted s

/-! ### Registers -/

/-- What the host reads from each register index (R170 to R175): write-only and reserved ones read as 0. -/
def readReg (reg : BitVec 4) (s : State) : Word :=
  if reg = 1 then statusWord s
  else if reg = 2 then s.seed
  else if reg = 4 then s.keylen
  else if reg = 5 then s.hash
  else if reg = 6 then s.config.keyCap
  else 0

/-- The value of a read goes to the host and no state of the block changes (R161). -/
def replyWith (v : Word) (s : State) : State := { s with reply := some v }

/-- A write of SEED (R168). -/
def setSeed (v : Word) (s : State) : State := { s with seed := v }

/-- A write of KEYLEN (R166, R169). -/
def setKeylen (v : Word) (s : State) : State := { s with keylen := v }

/-- What an accepted START writes (R164, R165): the latched flag, the filter's positions, DONE and `ph`. -/
def beginRun (rm : Bool) (ph : Phase) (s : State) : State :=
  { s with rm := rm, j := 0, flen := 0, done := false, ph := ph }

/-- The block's control transfer `ph <- P` (R12, R133). -/
def setPhase (ph : Phase) (s : State) : State := { s with ph := ph }

/-! ### Reset -/

/-- The reset event (R230): the whole state of the block becomes R40's, whatever it was. The parameter
KEY_CAP and the environment's further turns are no state of the block and stay (log 17). -/
def resetEvent (s : State) : State := { State.reset with config := s.config, agenda := s.agenda }

end Sys2Proof.Machine
end

