-- ==== Sys2Proof/Machine/Operands.lean ====
section
/-! DEFINITION. The operands of the engine's rules: the sequence SRC and what is read of it (spec/20_memory.md R51, R55). -/

namespace Sys2Proof.Machine

/-- `SRC`: FBUF in a run with the filter, KEY in one without (R51). -/
def srcSpace (s : State) : Space := if s.rm then .fbuf else .key

/-- The length of SRC (R51). -/
def srcLen (s : State) : Word := if s.rm then s.flen else s.keylen

/-- The chunk word at the read position (R128, line 3a). -/
def srcChunk (s : State) : Option Word := readWord (srcSpace s) s.i.toNat s

/-- One line of R130: if it applies, xor the byte at distance `off` from the read position, shifted left by
`sh`, into `h`. -/
def xorTailByte (applies : Bool) (off sh : Nat) (s : State) (h : Word) : Option Word :=
  if applies then
    match readByte (srcSpace s) (s.i.toNat + off) s with
    | some b => some (h ^^^ shl (zext32 b) sh)
    | none => none
  else some h

/-- The three xor lines of R130, in their order, each seeing the `h` the one before left. -/
def tailXors (s : State) : Option Word :=
  ((xorTailByte (s.rem == 3) 2 16 s s.h).bind (xorTailByte (decide (2 ≤ s.rem)) 1 8 s)).bind
    (xorTailByte (decide (1 ≤ s.rem)) 0 0 s)

end Sys2Proof.Machine
end

