-- ==== Sys2Proof/Machine/Commands.lean ====
section
/-! DEFINITION. Writes to CMD (spec/43_host_commands.md section 3 and R177). -/

namespace Sys2Proof.Machine

/-- `nop` (R163, R79). -/
def execNop (s : State) : Host.Outcome State Fault Refusal :=
  whenIdle s fun s => .next s

/-- `start` (R164): ignored while an error stands. -/
def execStart (s : State) : Host.Outcome State Fault Refusal :=
  whenIdle s fun s => .next (if s.err then s else beginRun false .init s)

/-- `start.rw` (R165): ignored while an error stands. -/
def execStartRw (s : State) : Host.Outcome State Fault Refusal :=
  whenIdle s fun s => .next (if s.err then s else beginRun true .filt s)

/-- `clear` (R166): the bytes of KEY are not erased. -/
def execClear (s : State) : Host.Outcome State Fault Refusal :=
  whenIdle s fun s => .next (setKeylen 0 s)

/-- `clrerr` (R167). -/
def execClrerr (s : State) : Host.Outcome State Fault Refusal :=
  whenIdle s fun s => .next (ackErr s)

/-- `cmd.illegal` (R177). -/
def execCmdIllegal (s : State) : Host.Outcome State Fault Refusal :=
  whenIdle s fun s => .next (raiseErr .illegalCmd s)

end Sys2Proof.Machine
end

