-- ==== Sys2Proof/Machine/DataWrites.lean ====
section
/-! DEFINITION. Writes to SEED and KEYDATA (spec/43_host_commands.md R168, R169, R178, R179) and the refused writes to
read-only and reserved registers (R176). -/

namespace Sys2Proof.Machine

/-- `seed imm32` (R168). -/
def execSeed (imm32 : Word) (s : State) : Host.Outcome State Fault Refusal :=
  whenIdle s fun s => .next (setSeed imm32 s)

/-- `push imm8` (R169), with KEY_OVERFLOW on a full buffer (R179, test 4 of R162). -/
def execPush (imm8 : Byte) (s : State) : Host.Outcome State Fault Refusal :=
  whenIdle s fun s =>
    if s.keylen = s.config.keyCap then .next (raiseErr .keyOverflow s)
    else
      match writeKey s.keylen.toNat imm8 s with
      | some s' => .next (setKeylen (s.keylen + 1) s')
      | none => .fault .noSuchIndex

/-- `push.bad` (R178). -/
def execPushBad (s : State) : Host.Outcome State Fault Refusal :=
  whenIdle s fun s => .next (raiseErr .badByte s)

/-- `wr.bad` (R176): test 1 of R162, before the busy test. -/
def refuseAccess (s : State) : Host.Outcome State Fault Refusal := .next (raiseErr .badAccess s)

/-- `wr.bad` to STATUS (R176). -/
def execWrBadR1 (s : State) : Host.Outcome State Fault Refusal := refuseAccess s

/-- `wr.bad` to KEYLEN (R176). -/
def execWrBadR4 (s : State) : Host.Outcome State Fault Refusal := refuseAccess s

/-- `wr.bad` to HASH (R176). -/
def execWrBadR5 (s : State) : Host.Outcome State Fault Refusal := refuseAccess s

/-- `wr.bad` to KEYCAP (R176). -/
def execWrBadR6 (s : State) : Host.Outcome State Fault Refusal := refuseAccess s

/-- `wr.bad` to reserved register 7 (R176). -/
def execWrBadR7 (s : State) : Host.Outcome State Fault Refusal := refuseAccess s

/-- `wr.bad` to reserved registers 8 to 15 (R176). -/
def execWrBadR8to15 (s : State) : Host.Outcome State Fault Refusal := refuseAccess s

end Sys2Proof.Machine
end

