-- ==== Sys2Proof/Machine/Engine.lean ====
section
/-! DEFINITION. The engine's rules (spec/41_whitespace_filter.md section 3, spec/42_hash_engine.md section 2). A rule asked for
in a state that does not enable it faults by name; a step never asks for one (log 8). -/

namespace Sys2Proof.Machine

/-- `idle` (R132): nothing is read or written (log 7). -/
def execIdle (s : State) : Host.Outcome State Fault Refusal :=
  if s.ph = .idle then .next s else .fault .ruleNotEnabled

/-- What filt.byte does with the byte it examines (R114). -/
def filtKeep (b : Byte) (s : State) : Host.Outcome State Fault Refusal :=
  if isWs b then .next { s with j := s.j + 1, ph := .filt }
  else
    match writeFbuf s.flen.toNat b s with
    | some s' => .next { s' with flen := s.flen + 1, j := s.j + 1, ph := .filt }
    | none => .fault .noSuchIndex

/-- `filt.byte` (R114). -/
def execFiltByte (s : State) : Host.Outcome State Fault Refusal :=
  if s.ph = .filt ∧ s.j < s.keylen then
    match readByte .key s.j.toNat s with
    | some b => filtKeep b s
    | none => .fault .keyNoValue
  else .fault .ruleNotEnabled

/-- `filt.exit` (R115). -/
def execFiltExit (s : State) : Host.Outcome State Fault Refusal :=
  if s.ph = .filt ∧ s.j = s.keylen then .next (setPhase .init s) else .fault .ruleNotEnabled

/-- `init` (R127). -/
def execInit (s : State) : Host.Outcome State Fault Refusal :=
  if s.ph = .init then
    .next { s with len := srcLen s, h := s.seed ^^^ srcLen s, i := 0, rem := srcLen s, ph := .body }
  else .fault .ruleNotEnabled

/-- `body.chunk` (R128). -/
def execBodyChunk (s : State) : Host.Outcome State Fault Refusal :=
  if s.ph = .body ∧ 4 ≤ s.rem then
    match srcChunk s with
    | some k => .next { s with h := bodyStep s.h k, i := s.i + 4, rem := s.rem - 4, ph := .body }
    | none => .fault (noValue (srcSpace s))
  else .fault .ruleNotEnabled

/-- `body.exit` (R129). -/
def execBodyExit (s : State) : Host.Outcome State Fault Refusal :=
  if s.ph = .body ∧ s.rem < 4 then .next (setPhase .tail s) else .fault .ruleNotEnabled

/-- `tail` (R130): the cascade of xors, then one multiply if any byte remained. -/
def execTail (s : State) : Host.Outcome State Fault Refusal :=
  if s.ph = .tail then
    match tailXors s with
    | some h => .next { s with h := if 1 ≤ s.rem then mul32 h mixMultiplier else h, ph := .final }
    | none => .fault (noValue (srcSpace s))
  else .fault .ruleNotEnabled

/-- `final` (R131): all six writes in one step. -/
def execFinal (s : State) : Host.Outcome State Fault Refusal :=
  if s.ph = .final then
    .next { s with h := avalanche s.h, hash := avalanche s.h, done := true, ph := .idle }
  else .fault .ruleNotEnabled

end Sys2Proof.Machine
end

