-- ==== Sys2Proof/Machine/Reads.lean ====
section
/-! DEFINITION. Reads of the host registers (spec/43_host_commands.md section 5): permitted in every phase, without side
effect, never an error (R161). -/

namespace Sys2Proof.Machine

/-- `rd.status` (R170). -/
def execRdStatus (s : State) : Host.Outcome State Fault Refusal := .next (replyWith (readReg 1 s) s)

/-- `rd.seed` (R171). -/
def execRdSeed (s : State) : Host.Outcome State Fault Refusal := .next (replyWith (readReg 2 s) s)

/-- `rd.keylen` (R172). -/
def execRdKeylen (s : State) : Host.Outcome State Fault Refusal := .next (replyWith (readReg 4 s) s)

/-- `rd.hash` (R173). -/
def execRdHash (s : State) : Host.Outcome State Fault Refusal := .next (replyWith (readReg 5 s) s)

/-- `rd.keycap` (R174). -/
def execRdKeycap (s : State) : Host.Outcome State Fault Refusal := .next (replyWith (readReg 6 s) s)

/-- `rd.zero` of CMD (R175). -/
def execRdZeroR0 (s : State) : Host.Outcome State Fault Refusal := .next (replyWith 0 s)

/-- `rd.zero` of KEYDATA (R175). -/
def execRdZeroR3 (s : State) : Host.Outcome State Fault Refusal := .next (replyWith 0 s)

/-- `rd.zero` of reserved register 7 (R175). -/
def execRdZeroR7 (s : State) : Host.Outcome State Fault Refusal := .next (replyWith 0 s)

/-- `rd.zero` of reserved registers 8 to 15 (R175). -/
def execRdZeroR8to15 (s : State) : Host.Outcome State Fault Refusal := .next (replyWith 0 s)

end Sys2Proof.Machine
end

