-- ==== Sys2Proof/Machine/Dispatch.lean ====
section
/-! DEFINITION. exec: one arm per row of the opcode table, each one direct call of the row's meaning. -/

namespace Sys2Proof.Machine

def exec (i : Instr) (s : State) : Host.Outcome State Fault Refusal :=
  match i with
  | .nop => Sys2Proof.Machine.execNop s
  | .start => Sys2Proof.Machine.execStart s
  | .startRw => Sys2Proof.Machine.execStartRw s
  | .clear => Sys2Proof.Machine.execClear s
  | .clrerr => Sys2Proof.Machine.execClrerr s
  | .seed imm32 => Sys2Proof.Machine.execSeed imm32 s
  | .push imm8 => Sys2Proof.Machine.execPush imm8 s
  | .rdStatus _ => Sys2Proof.Machine.execRdStatus s
  | .rdSeed _ => Sys2Proof.Machine.execRdSeed s
  | .rdKeylen _ => Sys2Proof.Machine.execRdKeylen s
  | .rdHash _ => Sys2Proof.Machine.execRdHash s
  | .rdKeycap _ => Sys2Proof.Machine.execRdKeycap s
  | .cmdIllegal _ => Sys2Proof.Machine.execCmdIllegal s
  | .pushBad _ => Sys2Proof.Machine.execPushBad s
  | .wrBadR1 _ => Sys2Proof.Machine.execWrBadR1 s
  | .wrBadR4 _ => Sys2Proof.Machine.execWrBadR4 s
  | .wrBadR5 _ => Sys2Proof.Machine.execWrBadR5 s
  | .wrBadR6 _ => Sys2Proof.Machine.execWrBadR6 s
  | .wrBadR7 _ => Sys2Proof.Machine.execWrBadR7 s
  | .wrBadR8to15 _ _ => Sys2Proof.Machine.execWrBadR8to15 s
  | .rdZeroR0 _ => Sys2Proof.Machine.execRdZeroR0 s
  | .rdZeroR3 _ => Sys2Proof.Machine.execRdZeroR3 s
  | .rdZeroR7 _ => Sys2Proof.Machine.execRdZeroR7 s
  | .rdZeroR8to15 _ _ => Sys2Proof.Machine.execRdZeroR8to15 s
  | .idle => Sys2Proof.Machine.execIdle s
  | .filtByte => Sys2Proof.Machine.execFiltByte s
  | .filtExit => Sys2Proof.Machine.execFiltExit s
  | .init => Sys2Proof.Machine.execInit s
  | .bodyChunk => Sys2Proof.Machine.execBodyChunk s
  | .bodyExit => Sys2Proof.Machine.execBodyExit s
  | .tail => Sys2Proof.Machine.execTail s
  | .final => Sys2Proof.Machine.execFinal s

end Sys2Proof.Machine
end

