-- ==== Sys2Proof/Machine/Turn.lean ====
section
/-! DEFINITION. One turn of one agent (spec/00_scope.md R9): what the host's, the engine's and the environment's turns run,
whose turn is next, and how an instruction is placed so that the next step runs it. -/

namespace Sys2Proof.Machine

/-- Whether the loop of the current phase goes on (R34): `j < KEYLEN` in FILT, `rem >= 4` in BODY. -/
def loopGoesOn (s : State) : Bool :=
  match s.ph with
  | .filt => decide (s.j < s.keylen)
  | .body => decide (4 ≤ s.rem)
  | _ => false

/-- The engine rule that `ph` and the loop test select (R34, R80); none in phase FILT with `j` above
KEYLEN, which enables neither R114 nor R115 (log 9). -/
def engineRule (s : State) : Option Instr :=
  if s.ph = .filt ∧ s.keylen < s.j then none else decodePhase (phaseCode s.ph) (loopGoesOn s)

/-- The engine's turn: its one enabled rule. In IDLE that is `idle`, which does nothing (R132; log 7). -/
def engineTurn (s : State) : Host.Outcome State Fault Refusal :=
  match engineRule s with
  | some i => exec i s
  | none => .fault .noRuleEnabled

/-- One turn: a transaction is decoded from its word and run, the engine runs its rule, `rst` resets. -/
def takeTurn (t : Turn) (s : State) : Host.Outcome State Fault Refusal :=
  match t with
  | .host tw => exec (decodeTw tw) s
  | .engine => engineTurn s
  | .reset => .next (resetEvent s)

/-- Whose turn is next: the head of the agenda; with nothing in store the engine moves, which is R238's
fairness assumption (log 5). -/
def nextTurn (s : State) : Turn := s.agenda.headD .engine

/-- The turn is taken off the agenda, and the reply port is 0 again until a read is taken (R160; log 6). -/
def popTurn (s : State) : State := { s with agenda := s.agenda.tail, reply := none }

/-- The state in which the engine's next rule is the one decodeBits reads from a phase label: `ph`, and
what the loop test needs where the state does not meet it already (log 12). -/
def placeRule (i : Instr) (s : State) : State :=
  match i with
  | .filtByte =>
    if s.j < s.keylen then setPhase .filt s
    else { s with ph := .filt, j := 0, flen := 0, keylen := 1, key := Memory.write s.key 0 0 }
  | .init => setPhase .init s
  | .bodyChunk =>
    if 4 ≤ s.rem then setPhase .body s
    else
      { s with
        ph := .body, rm := false, i := 0, rem := 4, len := 4, keylen := 4
        key := Memory.write (Memory.write (Memory.write (Memory.write s.key 0 0) 1 0) 2 0) 3 0 }
  | .tail => setPhase .tail s
  | .final => setPhase .final s
  | _ => setPhase .idle s

/-- A transaction word is placed as the host's next transaction; a phase label is placed as the engine's
next rule; a word that spells nothing places nothing (log 12). -/
def placeWord (nbits w : Nat) (s : State) : State :=
  match decodeBits nbits w with
  | .ok i =>
    if nbits < 37 then { placeRule i s with agenda := .engine :: s.agenda }
    else { s with agenda := .host (BitVec.ofNat 37 w) :: s.agenda }
  | .error _ => s

end Sys2Proof.Machine
end

