-- ==== Sys2Proof/Machine/Step.lean ====
section
/-! DEFINITION. The step of the machine: one step of one agent (spec/00_scope.md R9). -/

namespace Sys2Proof.Machine

/-- The turn at the head of the agenda is taken. -/
def step (s : State) : Host.Outcome State Fault Refusal := takeTurn (nextTurn s) (popTurn s)

/-- The instruction of a table word placed where the next step finds it (log 12). -/
def State.withFetchWord (s : State) (nbits w : Nat) : State := placeWord nbits w s

end Sys2Proof.Machine
end

