-- ==== Sys2Proof/Machine/Ports.lean ====
section
/-! DEFINITION. The block at its ports (spec/43_host_commands.md R160): one rising clock edge as the turns it amounts to
(R230, spec/70_reset_and_hazards.md R239), and the values of the output ports. -/

namespace Sys2Proof.Machine

/-- The input ports at one rising edge of `clk`. -/
structure PortIn where
  /-- `rst`. -/
  rst : Bool
  /-- `req_valid`. -/
  reqValid : Bool
  /-- `req_we`. -/
  reqWe : Bool
  /-- `req_reg`. -/
  reqReg : BitVec 4
  /-- `req_wdata`. -/
  reqWdata : Word
  deriving DecidableEq, Repr

/-- The output ports. -/
structure PortOut where
  /-- `rsp_rdata`. -/
  rspRdata : Word
  /-- `busy`. -/
  busy : Bool
  /-- `done`. -/
  done : Bool
  /-- `err`. -/
  err : Bool
  deriving DecidableEq, Repr

/-- The transaction word of the request ports (R70). -/
def requestWord (p : PortIn) : Tw := makeTw p.reqWe p.reqReg p.reqWdata

/-- The output ports while `p` is presented in state `s` (R160): the read value is computed from the state
before the edge, and is 0 when no read is presented; the three level outputs copy the flags.

DESIGN CHOICE (log 23): `rst` plays no part here. On a reset edge, where R230 says that `rsp_rdata` is not to be used
and spec/93_implementation_defined.md U12 leaves it open, the model shows the same value as on any other edge. -/
def portOut (p : PortIn) (s : State) : PortOut where
  rspRdata := if p.reqValid && !p.reqWe then readReg p.reqReg s else 0
  busy := busy s
  done := s.done
  err := s.err

/-- The turns one edge amounts to (R230, R239): reset wins outright and a transaction presented with it is
not taken; otherwise the presented transaction, then the engine's step if it completes on this edge and
`ph` was not IDLE before it. How many edges an engine step takes is not specified (R238): `engineMoves`
says whether one completes here (log 16). -/
def edgeTurns (p : PortIn) (engineMoves : Bool) (s : State) : List Turn :=
  if p.rst then [.reset]
  else
    (if p.reqValid then [.host (requestWord p)] else [])
      ++ (if engineMoves && busy s then [.engine] else [])

/-- Several turns in a row, stopping at the first fault or refusal. -/
def takeTurns : List Turn → State → Host.Outcome State Fault Refusal
  | [], s => .next s
  | t :: ts, s =>
    match takeTurn t s with
    | .next s' => takeTurns ts s'
    | .fault f => .fault f
    | .refused r => .refused r

/-- One rising edge of `clk`. -/
def clockEdge (p : PortIn) (engineMoves : Bool) (s : State) : Host.Outcome State Fault Refusal :=
  takeTurns (edgeTurns p engineMoves s) { s with reply := none }

end Sys2Proof.Machine
end

