-- ==== Sys2Proof/Machine/Script.lean ====
section
/-! DEFINITION. Host scripts (spec/30_encoding.md R77, R81, R82; spec/43_host_commands.md R181): the script lines and the
pseudo-instructions, the transactions they spell, and the host that plays a script beside the engine and reads the
replies. A script is the host's, no state of the block (log 19). -/

namespace Sys2Proof.Machine

/-- A script line (R81). -/
inductive ScriptLine where
  /-- `nop` -/
  | nop
  /-- `start` -/
  | start
  /-- `start.rw` -/
  | startRw
  /-- `clear` -/
  | clear
  /-- `clrerr` -/
  | clrerr
  /-- `seed <imm32>` -/
  | seed (imm32 : Word)
  /-- `push <imm>`: a value above 255 spells `push.bad` -/
  | push (imm : Word)
  /-- `rd.status` -/
  | rdStatus
  /-- `rd.seed` -/
  | rdSeed
  /-- `rd.keylen` -/
  | rdKeylen
  /-- `rd.hash` -/
  | rdHash
  /-- `rd.keycap` -/
  | rdKeycap
  /-- `wr <reg>, <imm32>` -/
  | wr (reg : BitVec 4) (imm32 : Word)
  /-- `rd <reg>` -/
  | rd (reg : BitVec 4)
  deriving DecidableEq, Repr

/-- The transaction word of a line (R75, R81); a read is spelled with `wdata` = 0 (R70). -/
def lineTw : ScriptLine → Tw
  | .nop => makeTw true 0 0x0
  | .start => makeTw true 0 0x1
  | .startRw => makeTw true 0 0x101
  | .clear => makeTw true 0 0x2
  | .clrerr => makeTw true 0 0x3
  | .seed imm32 => makeTw true 2 imm32
  | .push imm => makeTw true 3 imm
  | .rdStatus => makeTw false 1 0
  | .rdSeed => makeTw false 2 0
  | .rdKeylen => makeTw false 4 0
  | .rdHash => makeTw false 5 0
  | .rdKeycap => makeTw false 6 0
  | .wr reg imm32 => makeTw true reg imm32
  | .rd reg => makeTw false reg 0

/-- `pushs b0 b1 ...` (R82). An element above 255 spells `push.bad` (R81). -/
def pushs (elements : List Word) : List ScriptLine := elements.map .push

/-- The elements a quoted ASCII string stands for, one per character (R82). -/
def quoted (text : List Char) : List Word := text.map fun c => BitVec.ofNat 32 c.toNat

/-- A seed of any integer as the 32-bit pattern the host presents: `s mod 2^32` (R24, R168). -/
def seedPattern (s : Int) : Word := BitVec.ofInt 32 s

/-- The head of a call (R77, R181): key, seed and START. Without a key the one already held is hashed (R181),
without a seed the one SEED holds, 0 after reset, is used (R77), without a flag it is false (R77). -/
def callHead (key : Option (List Word)) (seed : Option Word) (rw : Bool := false) : List ScriptLine :=
  (match key with
    | some elements => .clear :: pushs elements
    | none => [])
  ++ (match seed with
    | some v => [.seed v]
    | none => [])
  ++ [if rw then .startRw else .start]

/-- The host's turns of a list of lines. -/
def hostTurns (script : List ScriptLine) : List Turn := script.map fun l => .host (lineTw l)

/-! ### Scripts that look at replies -/

/-- An item of a script: a line, or the pseudo-instruction `wait` (R82). -/
inductive ScriptItem where
  /-- One line, one transaction. -/
  | line (l : ScriptLine)
  /-- `wait`: repeat `rd.status` until the reply has bit 0 (`BUSY`) = 0. -/
  | wait
  deriving DecidableEq, Repr

/-- The transaction an item presents; `wait` presents `rd.status`, each time anew. -/
def itemTw : ScriptItem → Tw
  | .line l => lineTw l
  | .wait => lineTw .rdStatus

/-- What is left of a script when the transaction of its first item was taken with `reply`: a line is done,
`wait` is done only if the reply shows `BUSY` = 0 (R82). -/
def scriptRest (script : List ScriptItem) (reply : Option Word) : List ScriptItem :=
  match script with
  | [] => []
  | .line _ :: rest => rest
  | .wait :: rest => if reply.any (fun status => !status.getLsbD 0) then rest else .wait :: rest

/-- The call of R181: the head, `wait`, `rd.hash`. -/
def callScript (key : Option (List Word)) (seed : Option Word) (rw : Bool := false) : List ScriptItem :=
  (callHead key seed rw).map .line ++ [.wait, .line .rdHash]

/-- The pseudo-instruction `hash` (R82): as `callScript`, with one more `rd.status` before `rd.hash`. -/
def hashScript (key : Option (List Word)) (seed : Option Word) (rw : Bool := false) : List ScriptItem :=
  (callHead key seed rw).map .line ++ [.wait, .line .rdStatus, .line .rdHash]

/-- What the caller gets from the replies of a call: the last one, if the status before it has `ERR` = 0 and
`DONE` = 1, and no value otherwise (R181, R82). -/
def callResult (replies : List Word) : Option Word :=
  match replies.reverse with
  | hash :: status :: _ => if !status.getLsbD 2 && status.getLsbD 1 then some hash else none
  | _ => none

/-- Who moves next where a host plays a script: the agents of R9. -/
inductive Mover where
  /-- The host presents its next transaction; with no item left it presents none. -/
  | host
  /-- The engine takes a step. -/
  | engine
  /-- The environment asserts `rst`. -/
  | reset
  deriving DecidableEq, Repr

/-- A script being played. -/
structure Play where
  /-- The items not yet done. -/
  script : List ScriptItem
  /-- The block. -/
  state : State
  /-- What the reads returned so far, the first one first. -/
  replies : List Word
  deriving DecidableEq, Repr

/-- The turn a mover takes; none for a host whose script is done. -/
def moverTurn (m : Mover) (script : List ScriptItem) : Option Turn :=
  match m with
  | .host => script.head?.map fun item => .host (itemTw item)
  | .engine => some .engine
  | .reset => some .reset

/-- One move. -/
def playMove (m : Mover) (p : Play) : Host.Outcome Play Fault Refusal :=
  match moverTurn m p.script with
  | none => .next p
  | some turn =>
    match takeTurn turn { p.state with reply := none } with
    | .next t =>
      .next
        { script := if m = .host then scriptRest p.script t.reply else p.script
          state := t
          replies := p.replies ++ t.reply.toList }
    | .fault f => .fault f
    | .refused r => .refused r

/-- A script played in a given order of movers; every interleaving of R9 and R238 is one such order. -/
def play : List Mover → Play → Host.Outcome Play Fault Refusal
  | [], p => .next p
  | m :: ms, p =>
    match playMove m p with
    | .next q => play ms q
    | .fault f => .fault f
    | .refused r => .refused r

/-- A script about to be played from a state. -/
def playFrom (script : List ScriptItem) (s : State) : Play := ⟨script, s, []⟩

/-! ### The length of a run -/

/-- How many engine steps a run takes with the steps as cut here (R135). -/
def runSteps (keylen len : Nat) (rw : Bool) : Nat :=
  (if rw then keylen + 1 else 0) + 1 + len / 4 + 1 + 1 + 1

end Sys2Proof.Machine
end

