-- ==== Sys2Proof/Safety.lean ====
section
/-! DEFINITION. The terms claims are stated in: the sequences the memories hold, the invariants of a safe run
(spec/10_state.md R41), what a run in progress will publish, and the STATUS words a host can see. -/

namespace Sys2Proof.Machine

/-! ### The sequences the memories hold (R13) -/

/-- The bytes at indices 0 to `n - 1`. Claims use it only where every one of them holds a value; an index
that holds none is written 0 here and nowhere in the machine. -/
def Memory.bytes (m : Memory) (n : Nat) : List Byte :=
  (List.range n).map fun a => (Memory.read m a).getD 0

/-- Every index below `n` holds a value. -/
def Memory.filled (m : Memory) (n : Nat) : Prop := ∀ a, a < n → (Memory.read m a).isSome = true

/-- No cell lies at or above `n`. -/
def Memory.below (m : Memory) (n : Nat) : Prop := ∀ c ∈ m, c.1 < n

/-- The Key (R13). -/
def keySeq (s : State) : List Byte := Memory.bytes s.key s.keylen.toNat

/-- The filtered bytes so far (R32). -/
def fbufSeq (s : State) : List Byte := Memory.bytes s.fbuf s.flen.toNat

/-- The sequence the run hashes (R51). -/
def srcSeq (s : State) : List Byte := if s.rm then fbufSeq s else keySeq s

/-! ### The invariants of R41 -/

/-- In a run with the filter, FBUF holds exactly the filtered Key. -/
def Filtered (s : State) : Prop :=
  s.rm = true → Memory.filled s.fbuf s.flen.toNat ∧ fbufSeq s = filterWs (keySeq s)

/-- Item 6 of R41: the positions of a run that is reading its sequence. -/
structure Reading (s : State) : Prop where
  aligned : s.i.toNat % 4 = 0
  position : s.i.toNat + s.rem.toNat = s.len.toNat
  length : s.len = srcLen s
  withinKey : s.len ≤ s.keylen
  filtered : Filtered s

/-- What holds in each phase (R41, items 5 and 6). -/
def PhaseInv (s : State) : Prop :=
  match s.ph with
  | .idle => True
  | .filt =>
    s.rm = true ∧ s.flen ≤ s.j ∧ s.j ≤ s.keylen ∧ Memory.filled s.fbuf s.flen.toNat
      ∧ fbufSeq s = filterWs ((keySeq s).take s.j.toNat)
  | .init => Filtered s
  | .body => Reading s
  | .tail => Reading s ∧ s.rem ≤ 3
  | .final => s.rem ≤ 3

/-- The invariant of the machine: the canonical form of both memories, no cell at an index that does not
exist, the Key's bytes all present (R36), and items 1, 2, 3, 5 and 6 of R41. -/
structure MachineInv (s : State) : Prop where
  keyCanonical : Memory.wf s.key
  fbufCanonical : Memory.wf s.fbuf
  keyBelow : Memory.below s.key s.config.keyCap.toNat
  fbufBelow : Memory.below s.fbuf s.config.keyCap.toNat
  keylenWithin : s.keylen ≤ s.config.keyCap
  keyFilled : Memory.filled s.key s.keylen.toNat
  doneIdle : s.done = true → s.ph = .idle
  errIff : s.err = false ↔ s.errCode = .none
  phase : PhaseInv s

/-! ### What a run publishes (R126, R134) -/

/-- The rest of steps 3 and 4 from hash state `h` on the bytes not yet read: whole chunks first. -/
def mixRest : Word → List Byte → Word
  | h, b0 :: b1 :: b2 :: b3 :: rest => mixRest (bodyStep h (wordOfBytes b0 b1 b2 b3)) rest
  | h, t => tailMix h t

/-- The value FINAL will write into HASH if the engine runs on from `s`; in IDLE, HASH itself. -/
def pendingHash (s : State) : Word :=
  match s.ph with
  | .idle => s.hash
  | .filt => murmur2 (fbufSeq s ++ filterWs ((keySeq s).drop s.j.toNat)) s.seed
  | .init => murmur2 (srcSeq s) s.seed
  | .body => avalanche (mixRest s.h ((srcSeq s).drop s.i.toNat))
  | .tail => avalanche (tailMix s.h ((srcSeq s).drop s.i.toNat))
  | .final => avalanche s.h

/-- The state belongs to the run started with Key `K`, seed `sd` and flag `f`: the run is in progress with
its inputs unchanged and will publish their hash, or it is over and HASH holds it (R41, items 4 and 8). -/
def RunOf (K : List Byte) (sd : Word) (f : Bool) (s : State) : Prop :=
  (s.ph ≠ .idle ∧ keySeq s = K ∧ s.seed = sd ∧ s.rm = f ∧ pendingHash s = hashOf K sd f)
    ∨ (s.ph = .idle ∧ s.done = true ∧ s.hash = hashOf K sd f)

/-- A turn that begins a new run: a START in IDLE with no error standing (R164, R165). -/
def beginsRun (t : Turn) (s : State) : Prop :=
  s.ph = .idle ∧ s.err = false
    ∧ ∃ tw, t = .host tw ∧ (decodeTw tw = .start ∨ decodeTw tw = .startRw)

/-! ### Errors and the STATUS word -/

/-- The state a raised error leaves (R202, codes 1 to 5; `.none`: log 24): the flag set, the first cause kept,
nothing else changed. -/
def withError (c : ErrCode) (s : State) : State :=
  { s with err := true, errCode := if s.err then s.errCode else c }

/-- Which causes can stand when (spec/95_test_vectors.md section 5.1): a run can be accompanied only by BUSY_WRITE
or BAD_ACCESS, and BUSY_WRITE stands in IDLE only beside DONE. -/
def StatusInv (s : State) : Prop :=
  (s.ph ≠ .idle → s.errCode = .none ∨ s.errCode = .busyWrite ∨ s.errCode = .badAccess)
    ∧ (s.ph = .idle → s.done = false → s.errCode ≠ .busyWrite)

/-- The fourteen STATUS words of spec/95_test_vectors.md section 5.1. -/
def statusWords : List Word :=
  [0x00, 0x01, 0x02, 0x14, 0x16, 0x24, 0x26, 0x35, 0x36, 0x44, 0x46, 0x54, 0x55, 0x56]

/-- A row that is a host transaction (30_encoding.md R75); the others are engine rules (R80). -/
def isTransaction : Instr → Bool
  | .idle => false
  | .filtByte => false
  | .filtExit => false
  | .init => false
  | .bodyChunk => false
  | .bodyExit => false
  | .tail => false
  | .final => false
  | _ => true

/-- A row that is a read of a host register (R161). -/
def isRead : Instr → Bool
  | .rdStatus _ => true
  | .rdSeed _ => true
  | .rdKeylen _ => true
  | .rdHash _ => true
  | .rdKeycap _ => true
  | .rdZeroR0 _ => true
  | .rdZeroR3 _ => true
  | .rdZeroR7 _ => true
  | .rdZeroR8to15 _ _ => true
  | _ => false


end Sys2Proof.Machine
end

