-- ==== Sys2Proof/Certificates/Slice0/Obligations.lean ====
section
/-! DEFINITION. The statements for the provers, each from a numbered rule or a section of spec/. `next` is the only
outcome claimed where a rule gives an effect; a claim in a `next` equation is also the frame: every field the
equation does not name is unchanged. -/

open Sys2Proof Sys2Proof.Machine

/-! ### Encoding (spec/30_encoding.md) -/

/-- Words copied from the TW column of R75 and from 95_test_vectors.md section 5.2 decode to their rows. -/
def Obligations.TableWordsDecodeToTheirRows : Prop :=
  decodeTw 0x1000000000 = .nop ∧ decodeTw 0x1000000101 = .startRw ∧ decodeTw 0x12FFFFFFFF = .seed 0xFFFFFFFF
    ∧ decodeTw 0x1300000020 = .push 0x20 ∧ decodeTw 0x1380000041 = .pushBad 0x80000041
    ∧ decodeTw 0x1000000102 = .cmdIllegal 0x102 ∧ decodeTw 0x1F00000000 = .wrBadR8to15 15 0
    ∧ decodeTw 0x05DEADBEEF = .rdHash 0xDEADBEEF ∧ decodeTableWord 8 0b101 = some .final

/-- R76, the decode procedure, read off the three fields of a transaction word. -/
def Obligations.DecodeFollowsTheProcedure : Prop :=
  (∀ w : Word,
    decodeTw (makeTw false 0 w) = .rdZeroR0 w ∧ decodeTw (makeTw false 1 w) = .rdStatus w
      ∧ decodeTw (makeTw false 2 w) = .rdSeed w ∧ decodeTw (makeTw false 3 w) = .rdZeroR3 w
      ∧ decodeTw (makeTw false 4 w) = .rdKeylen w ∧ decodeTw (makeTw false 5 w) = .rdHash w
      ∧ decodeTw (makeTw false 6 w) = .rdKeycap w ∧ decodeTw (makeTw false 7 w) = .rdZeroR7 w)
  ∧ (∀ (reg : BitVec 4) (w : Word), 8 ≤ reg → decodeTw (makeTw false reg w) = .rdZeroR8to15 reg w)
  ∧ (∀ w : Word,
    decodeTw (makeTw true 1 w) = .wrBadR1 w ∧ decodeTw (makeTw true 4 w) = .wrBadR4 w
      ∧ decodeTw (makeTw true 5 w) = .wrBadR5 w ∧ decodeTw (makeTw true 6 w) = .wrBadR6 w
      ∧ decodeTw (makeTw true 7 w) = .wrBadR7 w ∧ decodeTw (makeTw true 2 w) = .seed w)
  ∧ (∀ (reg : BitVec 4) (w : Word), 8 ≤ reg → decodeTw (makeTw true reg w) = .wrBadR8to15 reg w)
  ∧ (∀ b : Byte, decodeTw (makeTw true 3 ((0 : BitVec 24) ++ b)) = .push b)
  ∧ (∀ w : Word, w.extractLsb' 8 24 ≠ 0 → decodeTw (makeTw true 3 w) = .pushBad w)
  ∧ decodeTw (makeTw true 0 0x0) = .nop ∧ decodeTw (makeTw true 0 0x1) = .start
  ∧ decodeTw (makeTw true 0 0x101) = .startRw ∧ decodeTw (makeTw true 0 0x2) = .clear
  ∧ decodeTw (makeTw true 0 0x3) = .clrerr
  ∧ ∀ w : Word, w ∉ [(0x0 : Word), 0x1, 0x101, 0x2, 0x3] → decodeTw (makeTw true 0 w) = .cmdIllegal w

/-- Every well-formed row is read back from its own word, with every operand the encoding admits (R75, R80). -/
def Obligations.DecodeOfEncodeIsTheInstruction : Prop :=
  ∀ i : Instr, i.wf = true → decodeCode (loopBody i) (encode i) = some i

/-- Every one of the 2^37 transaction words is a well-formed row's and that row spells it, and no two
well-formed rows share a word (R75). That a read or a refused write spells its own word back, its ignored bits
included, is the model's choice (log 15). -/
def Obligations.EncodeOfDecodeIsTheWord : Prop :=
  (∀ tw : Tw, (decodeTw tw).wf = true ∧ isTransaction (decodeTw tw) = true ∧ encode (decodeTw tw) = .tw tw)
    ∧ ∀ i i' : Instr, i.wf = true → i'.wf = true → isTransaction i = true → isTransaction i' = true →
      encode i = encode i' → i = i'

/-- R80, the phase labels and the rules they name; labels 110 and 111 name nothing. -/
def Obligations.PhaseLabelsNameTheirRules : Prop :=
  phaseCode .idle = 0b000 ∧ phaseCode .filt = 0b001 ∧ phaseCode .init = 0b010
    ∧ phaseCode .body = 0b011 ∧ phaseCode .tail = 0b100 ∧ phaseCode .final = 0b101
    ∧ (∀ loop, decodePhase 0b000 loop = some .idle ∧ decodePhase 0b010 loop = some .init
      ∧ decodePhase 0b100 loop = some .tail ∧ decodePhase 0b101 loop = some .final
      ∧ decodePhase 0b110 loop = none ∧ decodePhase 0b111 loop = none)
    ∧ decodePhase 0b001 true = some .filtByte ∧ decodePhase 0b001 false = some .filtExit
    ∧ decodePhase 0b011 true = some .bodyChunk ∧ decodePhase 0b011 false = some .bodyExit

/-! ### The step, reset and the ports -/

/-- A host turn runs the decoded transaction. Around exec the step takes the turn off the agenda and clears
the reply port (logs 4, 6, the model's own). -/
def Obligations.StepRunsTheDecodedTransaction : Prop :=
  ∀ (s : State) (tw : Tw) (i : Instr) (rest : List Turn),
    s.agenda = .host tw :: rest → decodeTw tw = i →
      step s = exec i { s with agenda := rest, reply := none }

/-- The engine's turn runs the one rule that `ph` and the loop test enable (R34, R136); so does a step with an
empty agenda (logs 4, 5, the model's own). In IDLE R9 and R132 give the engine no step; that a turn given to it
there runs the row idle is the model's reading (log 7). -/
def Obligations.StepRunsTheEnabledEngineRule : Prop :=
  ∀ (s : State) (rest : List Turn), s.agenda = .engine :: rest ∨ (s.agenda = [] ∧ rest = []) →
    (s.ph = .idle → step s = exec .idle { s with agenda := rest, reply := none })
    ∧ (s.ph = .filt → s.j < s.keylen → step s = exec .filtByte { s with agenda := rest, reply := none })
    ∧ (s.ph = .filt → s.j = s.keylen → step s = exec .filtExit { s with agenda := rest, reply := none })
    ∧ (s.ph = .init → step s = exec .init { s with agenda := rest, reply := none })
    ∧ (s.ph = .body → 4 ≤ s.rem → step s = exec .bodyChunk { s with agenda := rest, reply := none })
    ∧ (s.ph = .body → s.rem < 4 → step s = exec .bodyExit { s with agenda := rest, reply := none })
    ∧ (s.ph = .tail → step s = exec .tail { s with agenda := rest, reply := none })
    ∧ (s.ph = .final → step s = exec .final { s with agenda := rest, reply := none })

/-- The values R40 gives the state after reset; the elements R40 leaves unspecified are not claimed. -/
def Obligations.ResetStateHasTheStatedValues : Prop :=
  State.reset.ph = .idle ∧ State.reset.done = false ∧ State.reset.err = false ∧ State.reset.errCode = .none
    ∧ State.reset.seed = 0x00000000 ∧ State.reset.keylen = 0 ∧ State.reset.hash = 0x00000000
    ∧ statusWord State.reset = 0x00000000

/-- Whatever the state was, a run in progress included, the reset turn leaves R40's values (R230, R231); the
parameter KEY_CAP stays. -/
def Obligations.ResetOverwritesEveryState : Prop :=
  ∀ (s : State) (rest : List Turn), s.agenda = .reset :: rest →
    ∃ t, step s = .next t ∧ t.ph = .idle ∧ t.done = false ∧ t.err = false ∧ t.errCode = .none
      ∧ t.seed = 0 ∧ t.keylen = 0 ∧ t.hash = 0 ∧ t.config = s.config

/-- At the ports (R160, R230, R239). An edge with `rst` takes no transaction and no engine step, whatever is
presented. On an edge without one a presented transaction is taken, then the engine's step if one completes
there and `ph` was not IDLE before the edge; with neither nothing changes. What a read returns is computed from
the state before the edge, also beside FINAL, and a START taken on an edge gets no engine step on it. The
level outputs copy the flags. With nothing presented the data port shows 0 (R160); that it does so on a reset
edge too, which U12 leaves open, is the model's choice (log 23). Which edges complete an engine step is the
argument of clockEdge (log 16), the reply is the model's port field (log 6). -/
def Obligations.PortsShowTheTakenTransaction : Prop :=
  ∀ (p : PortIn) (s : State),
    (p.rst = true → ∀ moves, clockEdge p moves s = takeTurn .reset { s with reply := none })
    ∧ (p.rst = false → p.reqValid = false → clockEdge p false s = .next { s with reply := none })
    ∧ (p.rst = false → p.reqValid = true → ∀ t,
        takeTurn (.host (makeTw p.reqWe p.reqReg p.reqWdata)) { s with reply := none } = .next t →
        clockEdge p false s = .next t
          ∧ (p.reqWe = false → t.reply = some (portOut p s).rspRdata)
          ∧ (p.reqWe = true → t.reply = none ∧ (portOut p s).rspRdata = 0))
    ∧ (s.ph = .idle → ∀ moves, clockEdge p moves s = clockEdge p false s)
    ∧ (p.rst = false → p.reqValid = false → s.ph ≠ .idle →
        clockEdge p true s = takeTurn .engine { s with reply := none })
    ∧ (p.rst = false → p.reqValid = true → s.ph ≠ .idle → ∀ u t,
        takeTurn (.host (makeTw p.reqWe p.reqReg p.reqWdata)) { s with reply := none } = .next u →
        takeTurn .engine u = .next t →
        clockEdge p true s = .next t
          ∧ (p.reqWe = false → t.reply = some (portOut p s).rspRdata)
          ∧ (p.reqWe = true → t.reply = none ∧ (portOut p s).rspRdata = 0))
    ∧ (p.rst = false → p.reqValid = true → p.reqWe = false → s.ph = .final →
        ∃ t, clockEdge p true s = .next t ∧ t.ph = .idle ∧ t.done = true
          ∧ t.reply = some (readReg p.reqReg s) ∧ (portOut p s).busy = true)
    ∧ (p.reqValid = false → (portOut p s).rspRdata = 0)
    ∧ (portOut p s).busy = decide (s.ph ≠ .idle) ∧ (portOut p s).done = s.done ∧ (portOut p s).err = s.err

/-! ### Commands (spec/43_host_commands.md section 3) -/

/-- R163: `nop` has no effect in IDLE, whatever ERR is, and raises BUSY_WRITE during a run. -/
def Obligations.NopHasNoEffect : Prop :=
  decodeTw 0x1000000000 = .nop ∧ ∀ s : State,
    (s.ph = .idle → exec .nop s = .next s)
    ∧ (s.ph ≠ .idle → exec .nop s = .next (withError .busyWrite s))

/-- R164: `start` begins a run without the filter; with an error standing it does nothing; during a run it
raises BUSY_WRITE. -/
def Obligations.StartBeginsARunWithoutTheFilter : Prop :=
  decodeTw 0x1000000001 = .start ∧ ∀ s : State,
    (s.ph = .idle → s.err = false →
      exec .start s = .next { s with rm := false, j := 0, flen := 0, done := false, ph := .init })
    ∧ (s.ph = .idle → s.err = true → exec .start s = .next s)
    ∧ (s.ph ≠ .idle → exec .start s = .next (withError .busyWrite s))

/-- R165: `start.rw` begins a run with the filter. -/
def Obligations.StartRwBeginsARunWithTheFilter : Prop :=
  decodeTw 0x1000000101 = .startRw ∧ ∀ s : State,
    (s.ph = .idle → s.err = false →
      exec .startRw s = .next { s with rm := true, j := 0, flen := 0, done := false, ph := .filt })
    ∧ (s.ph = .idle → s.err = true → exec .startRw s = .next s)
    ∧ (s.ph ≠ .idle → exec .startRw s = .next (withError .busyWrite s))

/-- R166: `clear` empties the Key and erases no byte. -/
def Obligations.ClearEmptiesTheKey : Prop :=
  decodeTw 0x1000000002 = .clear ∧ ∀ s : State,
    (s.ph = .idle → exec .clear s = .next { s with keylen := 0 })
    ∧ (s.ph = .idle → ∃ t, exec .clear s = .next t ∧ keySeq t = [])
    ∧ (s.ph ≠ .idle → exec .clear s = .next (withError .busyWrite s))

/-- R167: `clrerr` clears ERR and ERRCODE and nothing else. -/
def Obligations.ClrerrClearsTheError : Prop :=
  decodeTw 0x1000000003 = .clrerr ∧ ∀ s : State,
    (s.ph = .idle → exec .clrerr s = .next { s with err := false, errCode := .none })
    ∧ (s.ph ≠ .idle → exec .clrerr s = .next (withError .busyWrite s))

/-- R177: an illegal command word raises ILLEGAL_CMD in IDLE and performs no command, not even partly. -/
def Obligations.IllegalCommandIsRefused : Prop :=
  ∀ (wdata : Word) (s : State), wdata ∉ [(0x0 : Word), 0x1, 0x101, 0x2, 0x3] →
    (s.ph = .idle → exec (.cmdIllegal wdata) s = .next (withError .illegalCmd s))
    ∧ (s.ph = .idle → exec (decodeTw (makeTw true 0 wdata)) s = .next (withError .illegalCmd s))

/-! ### Data writes -/

/-- R168: `seed` writes SEED, whatever ERR is. -/
def Obligations.SeedWritesTheSeed : Prop :=
  ∀ (imm32 : Word) (s : State),
    decodeTw (makeTw true 2 imm32) = .seed imm32
    ∧ (s.ph = .idle → exec (.seed imm32) s = .next { s with seed := imm32 })
    ∧ (s.ph ≠ .idle → exec (.seed imm32) s = .next (withError .busyWrite s))

/-- R169: `push` writes the byte at index KEYLEN, so that the Key is the pushes in order; every byte of KEY
at another index reads as before, and nothing but KEY and KEYLEN changes. On a full buffer it raises
KEY_OVERFLOW, during a run BUSY_WRITE. -/
def Obligations.PushAppendsOneByte : Prop :=
  ∀ (b : Byte) (s : State),
    decodeTw (makeTw true 3 ((0 : BitVec 24) ++ b)) = .push b
    ∧ (s.ph = .idle → s.keylen < s.config.keyCap →
        ∃ t, exec (.push b) s = .next t
          ∧ t = { s with key := t.key, keylen := s.keylen + 1 }
          ∧ Memory.read t.key s.keylen.toNat = some b
          ∧ (∀ a, a ≠ s.keylen.toNat → Memory.read t.key a = Memory.read s.key a)
          ∧ keySeq t = keySeq s ++ [b])
    ∧ (s.ph = .idle → s.keylen = s.config.keyCap → exec (.push b) s = .next (withError .keyOverflow s))
    ∧ (s.ph ≠ .idle → exec (.push b) s = .next (withError .busyWrite s))

/-- R179: a push on a full buffer raises KEY_OVERFLOW and appends nothing, and `start` is then refused until
the host acknowledges; with KEY_CAP = 0 every push is refused so. -/
def Obligations.PushOnAFullBufferOverflows : Prop :=
  ∀ (b : Byte) (s : State), s.ph = .idle →
    (s.keylen = s.config.keyCap →
      exec (decodeTw (makeTw true 3 ((0 : BitVec 24) ++ b))) s = .next (withError .keyOverflow s)
        ∧ exec .start (withError .keyOverflow s) = .next (withError .keyOverflow s)
        ∧ exec .startRw (withError .keyOverflow s) = .next (withError .keyOverflow s))
    ∧ (s.config.keyCap = 0 → s.keylen ≤ s.config.keyCap →
        exec (.push b) s = .next (withError .keyOverflow s))

/-- R178: a KEYDATA word with one of bits 31:8 set raises BAD_BYTE in IDLE; no byte is appended, full buffer
or not. -/
def Obligations.BadByteIsRefused : Prop :=
  ∀ (wdata : Word) (s : State), wdata.extractLsb' 8 24 ≠ 0 → s.ph = .idle →
    exec (.pushBad wdata) s = .next (withError .badByte s)
      ∧ exec (decodeTw (makeTw true 3 wdata)) s = .next (withError .badByte s)

/-- R176: a write to a read-only or reserved register raises BAD_ACCESS and stores nothing, in every phase. -/
def Obligations.BadAccessIsRefusedInEveryPhase : Prop :=
  ∀ (wdata : Word) (reg : BitVec 4) (s : State),
    exec (.wrBadR1 wdata) s = .next (withError .badAccess s)
    ∧ exec (.wrBadR4 wdata) s = .next (withError .badAccess s)
    ∧ exec (.wrBadR5 wdata) s = .next (withError .badAccess s)
    ∧ exec (.wrBadR6 wdata) s = .next (withError .badAccess s)
    ∧ exec (.wrBadR7 wdata) s = .next (withError .badAccess s)
    ∧ (8 ≤ reg → exec (.wrBadR8to15 reg wdata) s = .next (withError .badAccess s))
    ∧ (reg = 1 ∨ 4 ≤ reg → exec (decodeTw (makeTw true reg wdata)) s = .next (withError .badAccess s))

/-- R180: every write to CMD, SEED or KEYDATA during a run raises BUSY_WRITE and does nothing else. -/
def Obligations.WritesDuringARunAreRefused : Prop :=
  ∀ (reg : BitVec 4) (wdata : Word) (s : State), reg = 0 ∨ reg = 2 ∨ reg = 3 → s.ph ≠ .idle →
    exec (decodeTw (makeTw true reg wdata)) s = .next (withError .busyWrite s)

/-- R162, the whole write dispatch in its order of tests, on every register and every data word. The premise
is item 1 of R41, which rules out states no run reaches (statement StepKeepsTheInvariant). -/
def Obligations.WriteDispatchMakesTheTestsInOrder : Prop :=
  ∀ (reg : BitVec 4) (wdata : Word) (s : State), s.keylen ≤ s.config.keyCap →
    exec (decodeTw (makeTw true reg wdata)) s =
      .next
        (if reg = 1 ∨ 4 ≤ reg then withError .badAccess s
        else if s.ph ≠ .idle then withError .busyWrite s
        else if reg = 2 then { s with seed := wdata }
        else if reg = 3 then
          if wdata.extractLsb' 8 24 ≠ 0 then withError .badByte s
          else if s.keylen = s.config.keyCap then withError .keyOverflow s
          else
            { s with
              key := Memory.write s.key s.keylen.toNat (wdata.extractLsb' 0 8), keylen := s.keylen + 1 }
        else if wdata = 0x0 then s
        else if wdata = 0x1 then
          if s.err then s else { s with rm := false, j := 0, flen := 0, done := false, ph := .init }
        else if wdata = 0x101 then
          if s.err then s else { s with rm := true, j := 0, flen := 0, done := false, ph := .filt }
        else if wdata = 0x2 then { s with keylen := 0 }
        else if wdata = 0x3 then { s with err := false, errCode := .none }
        else withError .illegalCmd s)

/-! ### Reads (spec/43_host_commands.md section 5) -/

/-- R170, R23 and R201: `rd.status` replies with the flags in their places, the cause by its number, and every
other bit 0, in every state. -/
def Obligations.ReadStatusRepliesTheFlags : Prop :=
  (errNumber .none = 0 ∧ errNumber .badByte = 1 ∧ errNumber .keyOverflow = 2 ∧ errNumber .busyWrite = 3
    ∧ errNumber .illegalCmd = 4 ∧ errNumber .badAccess = 5)
  ∧ ∀ (w : Word) (s : State), decodeTw (makeTw false 1 w) = .rdStatus w ∧ ∃ v : Word,
    exec (.rdStatus w) s = .next { s with reply := some v }
      ∧ v.getLsbD 0 = decide (s.ph ≠ .idle) ∧ v.getLsbD 1 = s.done ∧ v.getLsbD 2 = s.err
      ∧ v.getLsbD 3 = false ∧ v.extractLsb' 4 4 = errNumber s.errCode ∧ v.extractLsb' 8 24 = 0

/-- R171 to R174: the other readable registers reply with what they hold, in every state, and nothing else
changes; the data field is ignored. -/
def Obligations.ReadsReplyTheirRegister : Prop :=
  ∀ (w : Word) (s : State),
    decodeTw (makeTw false 2 w) = .rdSeed w ∧ decodeTw (makeTw false 4 w) = .rdKeylen w
    ∧ decodeTw (makeTw false 5 w) = .rdHash w ∧ decodeTw (makeTw false 6 w) = .rdKeycap w
    ∧ exec (.rdSeed w) s = .next { s with reply := some s.seed }
    ∧ exec (.rdKeylen w) s = .next { s with reply := some s.keylen }
    ∧ exec (.rdHash w) s = .next { s with reply := some s.hash }
    ∧ exec (.rdKeycap w) s = .next { s with reply := some s.config.keyCap }

/-- R175: write-only and reserved registers read as 0, in every state, with no error. -/
def Obligations.ReadsOfNothingReplyZero : Prop :=
  ∀ (w : Word) (reg : BitVec 4) (s : State),
    exec (.rdZeroR0 w) s = .next { s with reply := some 0 }
    ∧ exec (.rdZeroR3 w) s = .next { s with reply := some 0 }
    ∧ exec (.rdZeroR7 w) s = .next { s with reply := some 0 }
    ∧ (8 ≤ reg → exec (.rdZeroR8to15 reg w) s = .next { s with reply := some 0 })
    ∧ (reg = 0 ∨ reg = 3 ∨ 7 ≤ reg →
        exec (decodeTw (makeTw false reg w)) s = .next { s with reply := some 0 })

/-- R161: a read of any register, in any phase, completes and changes nothing but what is replied. -/
def Obligations.EveryReadLeavesTheStateAlone : Prop :=
  ∀ (reg : BitVec 4) (w : Word) (s : State),
    exec (decodeTw (makeTw false reg w)) s = .next { s with reply := some (readReg reg s) }

/-! ### Engine rules (spec/41_whitespace_filter.md, spec/42_hash_engine.md) -/

/-- R132: of all rows only an accepted START leaves IDLE. That the row idle, and a turn given to the engine in
IDLE, answer the state unchanged is the model's reading of 'no step' (log 7). -/
def Obligations.IdleDoesNothing : Prop :=
  encode .idle = .ph 0b000 ∧ (∀ s : State, s.ph = .idle → exec .idle s = .next s ∧ engineTurn s = .next s)
    ∧ ∀ (i : Instr) (s t : State), exec i s = .next t → s.ph = .idle → t.ph ≠ .idle →
      (i = .start ∨ i = .startRw) ∧ s.err = false

/-- R114: filt.byte examines KEY[j]. A whitespace byte advances `j` only; any other is written to FBUF[flen],
every other byte of FBUF reading as before, and both positions advance. Premises: the byte has a value,
and the index written exists (R41 items 5 and 7). -/
def Obligations.FiltByteKeepsWhatIsNotWhitespace : Prop :=
  encode .filtByte = .ph 0b001 ∧ ∀ (b : Byte) (s : State), s.ph = .filt → s.j < s.keylen → Memory.read s.key s.j.toNat = some b →
    (b ∈ [(9 : Byte), 10, 13, 32] → exec .filtByte s = .next { s with j := s.j + 1 })
    ∧ (b ∉ [(9 : Byte), 10, 13, 32] → s.flen < s.config.keyCap →
        ∃ t, exec .filtByte s = .next t
          ∧ t = { s with fbuf := t.fbuf, flen := s.flen + 1, j := s.j + 1 }
          ∧ Memory.read t.fbuf s.flen.toNat = some b
          ∧ ∀ a, a ≠ s.flen.toNat → Memory.read t.fbuf a = Memory.read s.fbuf a)

/-- R115: filt.exit writes `ph` only; where R41 holds FBUF is then the filtered Key. -/
def Obligations.FiltExitGoesToInit : Prop :=
  encode .filtExit = .ph 0b001 ∧ ∀ s : State, s.ph = .filt → s.j = s.keylen →
    exec .filtExit s = .next { s with ph := .init } ∧ (MachineInv s → fbufSeq s = filterWs (keySeq s))

/-- R127: init sets the length of the sequence hashed, folds it into the seed, and starts at its head. -/
def Obligations.InitFoldsTheLengthIntoTheSeed : Prop :=
  encode .init = .ph 0b010 ∧ ∀ s : State, s.ph = .init →
    (s.rm = true →
      exec .init s =
        .next { s with len := s.flen, h := s.seed ^^^ s.flen, i := 0, rem := s.flen, ph := .body })
    ∧ (s.rm = false →
      exec .init s =
        .next { s with len := s.keylen, h := s.seed ^^^ s.keylen, i := 0, rem := s.keylen, ph := .body })

/-- R128: body.chunk mixes the little-endian word at the read position. Premises: the four bytes have values
(R41 items 6 and 7). The arithmetic is written out with 32-bit product, xor and logical shift. -/
def Obligations.BodyChunkMixesOneWord : Prop :=
  encode .bodyChunk = .ph 0b011 ∧ ∀ (b0 b1 b2 b3 : Byte) (s : State), s.ph = .body → 4 ≤ s.rem →
    readByte (srcSpace s) s.i.toNat s = some b0 → readByte (srcSpace s) (s.i.toNat + 1) s = some b1 →
    readByte (srcSpace s) (s.i.toNat + 2) s = some b2 → readByte (srcSpace s) (s.i.toNat + 3) s = some b3 →
      let k : Word := (b3 ++ b2 ++ b1 ++ b0 : BitVec (8 + 8 + 8 + 8))
      let k1 := k * 0x5bd1e995
      let k2 := (k1 ^^^ (k1 >>> 24)) * 0x5bd1e995
      exec .bodyChunk s =
        .next { s with h := (s.h * 0x5bd1e995) ^^^ k2, i := s.i + 4, rem := s.rem - 4 }

/-- R129: body.exit writes `ph` only. -/
def Obligations.BodyExitGoesToTail : Prop :=
  encode .bodyExit = .ph 0b011 ∧ ∀ s : State, s.ph = .body → s.rem < 4 → exec .bodyExit s = .next { s with ph := .tail }

/-- R130: tail folds in the bytes that remain, the first lowest, with one multiply after them; with none it
does not multiply. Premises: the bytes have values (R41 items 6 and 7). -/
def Obligations.TailFoldsTheRemainingBytes : Prop :=
  encode .tail = .ph 0b100 ∧ ∀ (b0 b1 b2 : Byte) (s : State), s.ph = .tail →
    (s.rem = 0 → exec .tail s = .next { s with ph := .final })
    ∧ (s.rem = 1 → readByte (srcSpace s) s.i.toNat s = some b0 →
      exec .tail s = .next { s with h := (s.h ^^^ b0.setWidth 32) * 0x5bd1e995, ph := .final })
    ∧ (s.rem = 2 → readByte (srcSpace s) s.i.toNat s = some b0 →
      readByte (srcSpace s) (s.i.toNat + 1) s = some b1 →
      exec .tail s =
        .next { s with
          h := (s.h ^^^ (b1.setWidth 32 <<< 8) ^^^ b0.setWidth 32) * 0x5bd1e995, ph := .final })
    ∧ (s.rem = 3 → readByte (srcSpace s) s.i.toNat s = some b0 →
      readByte (srcSpace s) (s.i.toNat + 1) s = some b1 →
      readByte (srcSpace s) (s.i.toNat + 2) s = some b2 →
      exec .tail s =
        .next { s with
          h := (s.h ^^^ (b2.setWidth 32 <<< 16) ^^^ (b1.setWidth 32 <<< 8) ^^^ b0.setWidth 32) * 0x5bd1e995
          ph := .final })

/-- R131: final applies the avalanche, publishes it in HASH, sets DONE and goes idle. -/
def Obligations.FinalPublishesTheAvalanche : Prop :=
  encode .final = .ph 0b101 ∧ ∀ s : State, s.ph = .final →
    let a := (s.h ^^^ (s.h >>> 13)) * 0x5bd1e995
    let r := a ^^^ (a >>> 15)
    exec .final s = .next { s with h := r, hash := r, done := true, ph := .idle }

/-! ### Whole-machine rules -/

/-- R202: a raised error sets the flag and keeps the first cause; nothing else is written. R202 says so for the
codes 1 to 5; that the operation does the same with `.none`, which no meaning raises, is the model's choice
(log 24). -/
def Obligations.RaisedErrorKeepsTheFirstCause : Prop :=
  ∀ (c : ErrCode) (s : State),
    (s.err = true → raiseErr c s = s)
    ∧ (s.err = false → raiseErr c s = { s with err := true, errCode := c })

/-- R58, R203, R214: no engine rule writes KEY, KEYLEN, SEED, ERR, ERRCODE, the latched flag, or anything of
the model's own. -/
def Obligations.EngineLeavesInputsAndErrorsAlone : Prop :=
  ∀ (i : Instr) (s t : State), isTransaction i = false → exec i s = .next t →
    t.key = s.key ∧ t.keylen = s.keylen ∧ t.seed = s.seed ∧ t.err = s.err ∧ t.errCode = s.errCode
      ∧ t.rm = s.rm ∧ t.config = s.config ∧ t.reply = s.reply ∧ t.agenda = s.agenda

/-- R59, R162: during a run no transaction changes anything but the error and what is replied. -/
def Obligations.HostLeavesARunAlone : Prop :=
  ∀ (i : Instr) (s t : State), isTransaction i = true → s.ph ≠ .idle → exec i s = .next t →
    t = { s with err := t.err, errCode := t.errCode, reply := t.reply }

/-- R211: of all turns of all agents only an accepted `clrerr` and a reset withdraw the error, and `clrerr`
restores nothing. -/
def Obligations.OnlyClrerrWithdrawsTheError : Prop :=
  ∀ (turn : Turn) (s t : State), takeTurn turn s = .next t → s.err = true → t.err = false →
    turn = .reset
      ∨ ∃ tw, turn = .host tw ∧ decodeTw tw = .clrerr ∧ s.ph = .idle
        ∧ t = { s with err := false, errCode := .none }

/-- R200, R210: an error is raised only by a write transaction, and the state after is the state before but
for ERR and ERRCODE, which holds one of the five causes of R201. -/
def Obligations.ErrorsArePreciseAndComeFromWrites : Prop :=
  ∀ (i : Instr) (s t : State), exec i s = .next t → s.err = false → t.err = true →
    isTransaction i = true ∧ isRead i = false ∧ t.errCode ≠ .none
      ∧ t = { s with err := true, errCode := t.errCode }

/-- R27, R38, R230: HASH changes by `final` and by reset only, DONE becomes 1 by `final` only, and 0 by an
accepted START and by reset only; said of the rows, and of the turns of all agents. -/
def Obligations.OnlyFinalWritesHash : Prop :=
  (∀ (i : Instr) (s t : State), exec i s = .next t →
    (t.hash ≠ s.hash → i = .final) ∧ (s.done = false → t.done = true → i = .final)
      ∧ (s.done = true → t.done = false → (i = .start ∨ i = .startRw) ∧ s.ph = .idle ∧ s.err = false))
  ∧ ∀ (turn : Turn) (s t : State), takeTurn turn s = .next t →
    (t.hash ≠ s.hash → turn = .reset ∨ (turn = .engine ∧ s.ph = .final))
      ∧ (s.done = false → t.done = true → turn = .engine ∧ s.ph = .final)
      ∧ (s.done = true → t.done = false → turn = .reset ∨ beginsRun turn s)

/-- R24, R26, R36, R230: KEYLEN changes by `push`, `clear` and reset only, KEY by `push` and reset only, SEED by
`seed` and reset only; said of the rows, and of the turns of all agents. That the reset turn empties KEY is
log 17's reading of 'unspecified' (R40). -/
def Obligations.InputsChangeOnlyByTheirCommands : Prop :=
  (∀ (i : Instr) (s t : State), exec i s = .next t →
    (t.keylen ≠ s.keylen → i = .clear ∨ ∃ b, i = .push b)
      ∧ (t.key ≠ s.key → ∃ b, i = .push b)
      ∧ (t.seed ≠ s.seed → i = .seed t.seed))
  ∧ ∀ (turn : Turn) (s t : State), takeTurn turn s = .next t →
    (t.keylen ≠ s.keylen →
        turn = .reset ∨ ∃ tw, turn = .host tw ∧ s.ph = .idle ∧ (decodeTw tw = .clear ∨ ∃ b, decodeTw tw = .push b))
      ∧ (t.key ≠ s.key → turn = .reset ∨ ∃ tw, turn = .host tw ∧ s.ph = .idle ∧ ∃ b, decodeTw tw = .push b)
      ∧ (t.seed ≠ s.seed → turn = .reset ∨ ∃ tw, turn = .host tw ∧ s.ph = .idle ∧ decodeTw tw = .seed t.seed)

/-- R133: but for reset (R230, R231), the writes of `ph` form the fixed graph, row by row; said of the rows, and of
the turns of all agents. -/
def Obligations.PhasesFollowTheFixedGraph : Prop :=
  (∀ (i : Instr) (s t : State), exec i s = .next t → t.ph ≠ s.ph →
    (i = .start ∧ s.ph = .idle ∧ t.ph = .init) ∨ (i = .startRw ∧ s.ph = .idle ∧ t.ph = .filt)
      ∨ (i = .filtExit ∧ s.ph = .filt ∧ t.ph = .init) ∨ (i = .init ∧ s.ph = .init ∧ t.ph = .body)
      ∨ (i = .bodyExit ∧ s.ph = .body ∧ t.ph = .tail) ∨ (i = .tail ∧ s.ph = .tail ∧ t.ph = .final)
      ∨ (i = .final ∧ s.ph = .final ∧ t.ph = .idle))
  ∧ ∀ (turn : Turn) (s t : State), takeTurn turn s = .next t → t.ph ≠ s.ph →
    (turn = .reset ∧ t.ph = .idle)
      ∨ (beginsRun turn s ∧ (t.ph = .init ∨ t.ph = .filt))
      ∨ (turn = .engine
        ∧ ((s.ph = .filt ∧ t.ph = .init) ∨ (s.ph = .init ∧ t.ph = .body) ∨ (s.ph = .body ∧ t.ph = .tail)
          ∨ (s.ph = .tail ∧ t.ph = .final) ∨ (s.ph = .final ∧ t.ph = .idle)))

/-- R28: KEY_CAP is constant for the life of the instance; no step of any agent changes it. -/
def Obligations.CapacityNeverChanges : Prop :=
  ∀ s t : State, step s = .next t → t.config = s.config

/-- R239: on one edge a host transaction and an engine step commute. Both evaluated on the state before the
edge: the engine's writes are the same with and without the transaction, and the transaction's are kept. -/
def Obligations.HostAndEngineCommute : Prop :=
  ∀ (i : Instr) (s u t : State), isTransaction i = true → s.ph ≠ .idle →
    exec i s = .next u → engineTurn s = .next t →
      engineTurn u = .next { t with err := u.err, errCode := u.errCode, reply := u.reply }

/-! ### Invariants and safety -/

/-- The state after reset meets the invariants of R41 and of the memories. -/
def Obligations.ResetMeetsTheInvariant : Prop :=
  MachineInv State.reset ∧ StatusInv State.reset

/-- R41: every step of every agent keeps the invariants, from every state that meets them: both memories
canonical, the Key's bytes all present, positions in bounds, FBUF the filtered Key. -/
def Obligations.StepKeepsTheInvariant : Prop :=
  ∀ s t : State, MachineInv s → step s = .next t → MachineInv t

/-- R57, R136, R203: from a state that meets the invariants every step of every agent completes: no access
leaves its buffer, no engine rule is stuck, no transaction is refused by the model. -/
def Obligations.StepNeverStops : Prop :=
  ∀ s : State, MachineInv s → ∃ t, step s = .next t

/-- R136: in a state that meets the invariants with `ph` not IDLE, exactly one engine rule runs, and every
other engine rule is not enabled. -/
def Obligations.ExactlyOneEngineRuleIsEnabled : Prop :=
  ∀ s : State, MachineInv s → s.ph ≠ .idle →
    ∃ i, isTransaction i = false ∧ (∃ t, exec i s = .next t) ∧ engineTurn s = exec i s
      ∧ ∀ i', isTransaction i' = false → i' ≠ i → exec i' s = .fault .ruleNotEnabled

/-- The STATUS words of 95_test_vectors.md section 5.1: the causes that can stand beside BUSY and DONE are kept by
every step, and with the invariants they leave fourteen words. -/
def Obligations.StatusTakesFourteenValues : Prop :=
  (∀ s t : State, MachineInv s → StatusInv s → step s = .next t → StatusInv t)
    ∧ ∀ s : State, MachineInv s → StatusInv s → statusWord s ∈ statusWords

/-! ### Runs (spec/42_hash_engine.md section 4) -/

/-- An accepted START begins the run of the Key and SEED as they stand (R60, R164, R165). -/
def Obligations.StartBeginsTheRunOfItsInputs : Prop :=
  ∀ s : State, MachineInv s → s.ph = .idle → s.err = false →
    (∃ t, exec .start s = .next t ∧ t.ph ≠ .idle ∧ RunOf (keySeq s) s.seed false t)
      ∧ ∃ t, exec .startRw s = .next t ∧ t.ph ≠ .idle ∧ RunOf (keySeq s) s.seed true t

/-- R41 items 4 and 8, R134, R214: no turn but a reset and a new START takes a state out of the run it belongs
to. In particular no transaction during a run changes its outcome, and while DONE = 1 HASH is the hash of
the Key, seed and flag of the most recent START. -/
def Obligations.NothingDisturbsARun : Prop :=
  ∀ (K : List Byte) (sd : Word) (f : Bool) (s t : State) (turn : Turn),
    MachineInv s → RunOf K sd f s → turn ≠ .reset → ¬ beginsRun turn s → takeTurn turn s = .next t → RunOf K sd f t

/-- R134, R135, R116: from an accepted START the engine alone reaches IDLE with DONE = 1 and HASH the hash of
the Key under SEED and the flag, its inputs unchanged, in exactly the number of engine steps R135 gives: after
fewer it is not in IDLE. -/
def Obligations.RunCompletesWithTheHash : Prop :=
  ∀ (s : State) (rw : Bool), MachineInv s → s.ph = .idle → s.err = false →
    ∃ t u,
      exec (if rw then .startRw else .start) s = .next t
        ∧ takeTurns
            (List.replicate
              (runSteps s.keylen.toNat (if rw then filterWs (keySeq s) else keySeq s).length rw) .engine) t
          = .next u
        ∧ u.ph = .idle ∧ u.done = true ∧ u.hash = hashOf (keySeq s) s.seed rw
        ∧ u.key = s.key ∧ u.keylen = s.keylen ∧ u.seed = s.seed ∧ u.err = false
        ∧ ∀ m, m < runSteps s.keylen.toNat (if rw then filterWs (keySeq s) else keySeq s).length rw →
          ∃ v, takeTurns (List.replicate m .engine) t = .next v ∧ v.ph ≠ .idle

/-- R77, R82, R181: one call, from any idle state with no error standing. The key may be the one held already and
the seed the one SEED holds. With a key that fits, the head and the run's engine steps leave the hash; and in
every order of the agents' moves without a reset the two scripts of a call never stop, can always be played to
their end, and once played to it return the hash. With an element above 255, or more elements than fit, an
error stands at their end and they return no value. Scripts and movers are the model's notation for the host (log 19). -/
def Obligations.CallSequenceReturnsTheHash : Prop :=
  (∀ (s : State) (keyArg : Option (List Byte)) (seedArg : Option Word) (rw : Bool) (key : List Byte) (sd : Word),
    MachineInv s → s.ph = .idle → s.err = false → key = keyArg.getD (keySeq s) → sd = seedArg.getD s.seed →
    key.length ≤ s.config.keyCap.toNat →
      (∃ t,
        takeTurns
            (hostTurns (callHead (keyArg.map (List.map zext32)) seedArg rw)
              ++ List.replicate
                (runSteps key.length (if rw then filterWs key else key).length rw) .engine) s
          = .next t
        ∧ statusWord t = 0x00000002 ∧ readReg 5 t = hashOf key sd rw ∧ keySeq t = key)
      ∧ ∀ script ∈ [callScript (keyArg.map (List.map zext32)) seedArg rw,
          hashScript (keyArg.map (List.map zext32)) seedArg rw],
        ∀ moves : List Mover, .reset ∉ moves → ∃ p, play moves (playFrom script s) = .next p
          ∧ (p.script = [] → callResult p.replies = some (hashOf key sd rw))
          ∧ ∃ more q, .reset ∉ more ∧ play more p = .next q ∧ q.script = [])
  ∧ ∀ (s : State) (elements : List Word) (seedArg : Option Word) (rw : Bool),
    MachineInv s → s.ph = .idle → s.err = false →
    (∃ w ∈ elements, w.extractLsb' 8 24 ≠ 0) ∨ s.config.keyCap.toNat < elements.length →
      ∀ script ∈ [callScript (some elements) seedArg rw, hashScript (some elements) seedArg rw],
        ∀ moves : List Mover, .reset ∉ moves → ∃ p, play moves (playFrom script s) = .next p
          ∧ p.state.ph = .idle
          ∧ (p.script = [] → p.state.err = true ∧ callResult p.replies = none)
          ∧ ∃ more q, .reset ∉ more ∧ play more p = .next q ∧ q.script = []

/-- R39, R137: a run's result depends on Key, SEED and flag at its START and on nothing else the state
holds, whatever the internal registers held. -/
def Obligations.HashDependsOnItsInputsOnly : Prop :=
  ∀ (s s' : State) (rw : Bool) (t t' u u' : State) (n : Nat),
    MachineInv s → MachineInv s' → s.ph = .idle → s'.ph = .idle → s.err = false → s'.err = false →
    keySeq s = keySeq s' → s.seed = s'.seed →
    exec (if rw then .startRw else .start) s = .next t →
    exec (if rw then .startRw else .start) s' = .next t' →
    takeTurns (List.replicate n .engine) t = .next u → takeTurns (List.replicate n .engine) t' = .next u' →
      u.ph = u'.ph ∧ (u.ph = .idle → u.hash = u'.hash)

/-! ### Arithmetic and the function (spec/40_u32_multiply_modular.md, 41, 42) -/

/-- R52, R91, R97, R98: the primitives as numbers. R97 and R98 define the shifts for distances 0 to 31; larger
distances, which nothing uses, are the model's own (log 22). -/
def Obligations.PrimitivesAsNumbers : Prop :=
  (∀ a b : Word, (mul32 a b).toNat = a.toNat * b.toNat % 2 ^ 32)
    ∧ (∀ (a : Word) (n : Nat), (shr a n).toNat = a.toNat / 2 ^ n)
    ∧ (∀ (a : Word) (n : Nat), (shl a n).toNat = a.toNat * 2 ^ n % 2 ^ 32)
    ∧ ∀ b0 b1 b2 b3 : Byte,
        (wordOfBytes b0 b1 b2 b3).toNat
          = b0.toNat + 2 ^ 8 * b1.toNat + 2 ^ 16 * b2.toNat + 2 ^ 24 * b3.toNat

/-- R92, R93: the 16-bit split computes the product modulo 2^32 on all operands. -/
def Obligations.SplitMultiplierIsTheProduct : Prop :=
  ∀ a b : Word, mul32Split a b = mul32 a b

/-- R94, R95: multiplying by `M`, the shift-xor of any distance from 1, and the avalanche lose nothing, and
map 0 to 0. -/
def Obligations.MixingStepsAreInjective : Prop :=
  (∀ x y : Word, mul32 x mixMultiplier = mul32 y mixMultiplier → x = y)
    ∧ (∀ (n : Nat) (x y : Word), 1 ≤ n → xorShr x n = xorShr y n → x = y)
    ∧ (∀ x y : Word, avalanche x = avalanche y → x = y) ∧ avalanche 0 = 0

/-- R112 as a recursion, and items 1, 2, 4 and 5 of R113: order kept, the length, idempotence, concatenation.
Item 3 is EngineLeavesInputsAndErrorsAlone, item 6 is in HashProperties. -/
def Obligations.FilterRemovesExactlyTheWhitespace : Prop :=
  filterWs [] = []
    ∧ (∀ (s : List Byte) (b : Byte),
        filterWs (s ++ [b]) = if b = 9 ∨ b = 10 ∨ b = 13 ∨ b = 32 then filterWs s else filterWs s ++ [b])
    ∧ (∀ s, (filterWs s).Sublist s)
    ∧ (∀ s, filterWs (filterWs s) = filterWs s)
    ∧ (∀ s t, filterWs (s ++ t) = filterWs s ++ filterWs t)
    ∧ (∀ s, (filterWs s).length ≤ s.length)
    ∧ ∀ s, (filterWs s).length = s.length ↔ ∀ b ∈ s, isWs b = false

/-- R138, R140, R141: the empty sequence, the filter's equivalence, and injectivity in the seed for a fixed
key. -/
def Obligations.HashProperties : Prop :=
  (∀ (seed : Word) (rw : Bool), hashOf [] seed rw = avalanche seed)
    ∧ (∀ (key : List Byte) (seed : Word), hashOf key seed true = hashOf (filterWs key) seed false)
    ∧ (∀ (key : List Byte) (seed : Word), (∀ b ∈ key, isWs b = false) →
        hashOf key seed true = hashOf key seed false)
    ∧ ∀ (key : List Byte) (rw : Bool) (x y : Word), hashOf key x rw = hashOf key y rw → x = y
end

