-- ==== Sys2Proof/Laws/Bits.lean ====
section
/-! SUPPORT. A transaction word is its three fields, and its three fields are the word (spec/30_encoding.md R70). -/

namespace Sys2Proof

/-- Bit by bit, a transaction word is `wdata` below bit 32, `reg` below bit 36, and `we` at bit 36. -/
theorem getLsbD_makeTw (we : Bool) (reg : BitVec 4) (wdata : Word) (k : Nat) :
    (makeTw we reg wdata).getLsbD k =
      if k < 32 then wdata.getLsbD k
      else if k < 36 then reg.getLsbD (k - 32) else (decide (k = 36) && we) := by
  have houter := BitVec.getLsbD_append (x := BitVec.ofBool we ++ reg) (y := wdata) (i := k)
  have hinner := BitVec.getLsbD_append (x := BitVec.ofBool we) (y := reg) (i := k - 32)
  refine houter.trans ?_
  rw [hinner]
  by_cases h32 : k < 32
  · simp [h32]
  · by_cases h36 : k < 36
    · simp [h32, h36, show k - 32 < 4 by omega]
    · have h4 : ¬ k - 32 < 4 := by omega
      simp only [h32, h36, h4, if_false, BitVec.getLsbD_ofBool]
      congr 1
      exact decide_eq_decide.mpr (by omega)

@[simp] theorem twWe_makeTw (we : Bool) (reg : BitVec 4) (wdata : Word) :
    twWe (makeTw we reg wdata) = we := by
  rw [twWe, getLsbD_makeTw]
  simp

@[simp] theorem twReg_makeTw (we : Bool) (reg : BitVec 4) (wdata : Word) :
    twReg (makeTw we reg wdata) = reg := by
  apply BitVec.eq_of_getLsbD_eq
  intro k hk
  simp [twReg, getLsbD_makeTw, hk, show 32 + k < 36 by omega]

@[simp] theorem twWdata_makeTw (we : Bool) (reg : BitVec 4) (wdata : Word) :
    twWdata (makeTw we reg wdata) = wdata := by
  apply BitVec.eq_of_getLsbD_eq
  intro k hk
  simp [twWdata, getLsbD_makeTw, hk]

theorem makeTw_fields (tw : Tw) : makeTw (twWe tw) (twReg tw) (twWdata tw) = tw := by
  apply BitVec.eq_of_getLsbD_eq
  intro k hk
  rw [getLsbD_makeTw]
  split
  · next h => simp [twWdata, h]
  · split
    · next h => simp [twReg, show k - 32 < 4 by omega, show 32 + (k - 32) = k by omega]
    · have h : k = 36 := by omega
      subst h
      simp [twWe]

/-- A byte's word has nothing above bit 7 (R73). -/
@[simp] theorem zext32_high (b : Byte) : (zext32 b).extractLsb' 8 24 = 0 := by
  apply BitVec.eq_of_getLsbD_eq
  intro k hk
  simp [zext32]

@[simp] theorem zext32_low (b : Byte) : (zext32 b).extractLsb' 0 8 = b := by
  apply BitVec.eq_of_getLsbD_eq
  intro k hk
  simp [zext32, hk, show k < 32 by omega]

theorem zext32_of_high_zero (w : Word) (h : w.extractLsb' 8 24 = 0) :
    zext32 (w.extractLsb' 0 8) = w := by
  apply BitVec.eq_of_getLsbD_eq
  intro k hk
  by_cases h8 : k < 8
  · simp [zext32, h8, hk]
  · have hb := congrArg (fun v => BitVec.getLsbD v (k - 8)) h
    simp only [BitVec.getLsbD_extractLsb', show k - 8 < 24 by omega, show 8 + (k - 8) = k by omega] at hb
    simp [zext32, h8] at hb ⊢
    simpa using hb.symm

/-- A byte below twenty-four zero bits is the byte's word. -/
theorem append_eq_zext32 (b : Byte) : ((0 : BitVec 24) ++ b : BitVec (24+8)) = zext32 b := by
  apply BitVec.eq_of_toNat_eq
  have h := b.isLt
  simp [zext32]
  rw [Nat.mod_eq_of_lt (by omega)]
  exact BitVec.toNat_append _ _ |>.trans (by simp)

end Sys2Proof
end

