-- ==== Sys2Proof/Laws/Datapath.lean ====
section
/-! SUPPORT. The datapath's operations in the forms proofs use, and R126's indexed loop as a recursion over the bytes. -/

namespace Sys2Proof.Machine

/-- The low half of the product is the product of 32-bit values. -/
theorem mul32_eq_mul (a b : Word) : mul32 a b = a * b := by
  apply BitVec.eq_of_toNat_eq
  simp [mul32, BitVec.toNat_mul]

@[simp] theorem toNat_mul32 (a b : Word) : (mul32 a b).toNat = a.toNat * b.toNat % 2 ^ 32 := by
  simp [mul32]

@[simp] theorem filterWs_nil : filterWs [] = [] := rfl

theorem filterWs_append (s t : List Byte) : filterWs (s ++ t) = filterWs s ++ filterWs t :=
  List.filter_append ..

theorem filterWs_singleton (b : Byte) : filterWs [b] = if isWs b then [] else [b] := by
  by_cases h : isWs b = true <;> simp [filterWs, h]

theorem length_filterWs_le (s : List Byte) : (filterWs s).length ≤ s.length :=
  List.length_filter_le ..

/-- R52's assembly is the concatenation, the first byte lowest. -/
theorem wordOfBytes_append (b0 b1 b2 b3 : Byte) : wordOfBytes b0 b1 b2 b3 = (b3 ++ b2 ++ b1 ++ b0 : BitVec (8+8+8+8)) := by
  apply BitVec.eq_of_getLsbD_eq
  intro k hk
  have e1 := BitVec.getLsbD_append (x := b3 ++ b2 ++ b1) (y := b0) (i := k)
  have e2 := BitVec.getLsbD_append (x := b3 ++ b2) (y := b1) (i := k - 8)
  have e3 := BitVec.getLsbD_append (x := b3) (y := b2) (i := k - 8 - 8)
  refine Eq.trans ?_ e1.symm
  rw [e2, e3]
  by_cases h1 : k < 8
  · have : k < 16 := by omega
    have : k < 24 := by omega
    simp [wordOfBytes, zext32, shl, *]
  · by_cases h2 : k < 16
    · have : k < 24 := by omega
      have : k - 8 < 8 := by omega
      simp [wordOfBytes, zext32, shl, *]
      intro h; have := BitVec.lt_of_getLsbD h; omega
    · by_cases h3 : k < 24
      · have : ¬ k - 8 < 8 := by omega
        have : k - 16 < 8 := by omega
        have : k - 8 - 8 = k - 16 := by omega
        have a1 : b0.getLsbD k = false := BitVec.getLsbD_of_ge _ _ (by omega)
        have a2 : b1.getLsbD (k-8) = false := BitVec.getLsbD_of_ge _ _ (by omega)
        simp [wordOfBytes, zext32, shl, *]
      · have : ¬ k - 8 < 8 := by omega
        have : ¬ k - 16 < 8 := by omega
        have e8 : k - 8 - 8 = k - 16 := by omega
        have e9 : k - 16 - 8 = k - 24 := by omega
        have a1 : b0.getLsbD k = false := BitVec.getLsbD_of_ge _ _ (by omega)
        have a2 : b1.getLsbD (k-8) = false := BitVec.getLsbD_of_ge _ _ (by omega)
        have a3 : b2.getLsbD (k-16) = false := BitVec.getLsbD_of_ge _ _ (by omega)
        simp [wordOfBytes, zext32, shl, *]

/-! ### R126's loop -/

theorem mixRest_of_short (h : Word) (t : List Byte) (ht : t.length < 4) : mixRest h t = tailMix h t := by
  match t, ht with
  | [], _ => rfl
  | [_], _ => rfl
  | [_, _], _ => rfl
  | [_, _, _], _ => rfl

theorem mixRest_chunk (h : Word) (b0 b1 b2 b3 : Byte) (t : List Byte) :
    mixRest h (b0 :: b1 :: b2 :: b3 :: t) = mixRest (bodyStep h (wordOfBytes b0 b1 b2 b3)) t := rfl

theorem wordAt_shift (b0 b1 b2 b3 : Byte) (t : List Byte) (a : Nat) :
    wordAt (b0 :: b1 :: b2 :: b3 :: t) (a + 4) = wordAt t a := by
  simp [wordAt]

/-- The loop over chunks from any hash state is the recursion that eats four bytes at a time. -/
theorem chunks_eq_mixRest (s : List Byte) (h : Word) :
    tailMix ((List.range (s.length / 4)).foldl (fun h c => bodyStep h (wordAt s (4 * c))) h)
      (s.drop (4 * (s.length / 4))) = mixRest h s := by
  match s with
  | [] => rfl
  | [_] => simp [mixRest]
  | [_, _] => simp [mixRest]
  | [_, _, _] => simp [mixRest]
  | b0 :: b1 :: b2 :: b3 :: t =>
    have hq : (b0 :: b1 :: b2 :: b3 :: t).length / 4 = t.length / 4 + 1 := by
      simp only [List.length_cons]; omega
    rw [hq, List.range_succ_eq_map, List.foldl_cons, List.foldl_map, mixRest_chunk,
      ← chunks_eq_mixRest t]
    have hd : 4 * (t.length / 4 + 1) = 4 * (t.length / 4) + 4 := by omega
    rw [hd]
    simp only [List.drop_succ_cons]
    rfl

/-- Murmur2 as a recursion over the bytes. -/
theorem murmur2_eq_mixRest (s : List Byte) (seed : Word) :
    murmur2 s seed = avalanche (mixRest (seed ^^^ BitVec.ofNat 32 s.length) s) := by
  unfold murmur2
  rw [← chunks_eq_mixRest]

end Sys2Proof.Machine
end

