-- ==== Sys2Proof/Laws/Decode.lean ====
section
/-! SUPPORT. The decoder on a word given by its fields. -/

namespace Sys2Proof

theorem decodeTw_makeTw (we : Bool) (reg : BitVec 4) (wdata : Word) :
    decodeTw (makeTw we reg wdata) = if we then decodeWrite reg wdata else decodeRead reg wdata := by
  simp [decodeTw]

/-- The registers of R21: seven, and 7 to 15 reserved, which the table splits at 8. -/
theorem reg_cases (reg : BitVec 4) :
    reg = 0 ∨ reg = 1 ∨ reg = 2 ∨ reg = 3 ∨ reg = 4 ∨ reg = 5 ∨ reg = 6 ∨ reg = 7 ∨ 8 ≤ reg := by
  revert reg; decide

theorem reg_high_ne {reg : BitVec 4} (h : 8 ≤ reg) :
    reg ≠ 0 ∧ reg ≠ 1 ∧ reg ≠ 2 ∧ reg ≠ 3 ∧ reg ≠ 4 ∧ reg ≠ 5 ∧ reg ≠ 6 ∧ reg ≠ 7 := by
  revert reg; decide

theorem decodeRead_high {reg : BitVec 4} (w : Word) (h : 8 ≤ reg) :
    decodeRead reg w = .rdZeroR8to15 reg w := by
  obtain ⟨h0, h1, h2, h3, h4, h5, h6, h7⟩ := reg_high_ne h
  simp only [decodeRead, h0, h1, h2, h3, h4, h5, h6, h7, if_false]

theorem decodeWrite_high {reg : BitVec 4} (w : Word) (h : 8 ≤ reg) :
    decodeWrite reg w = .wrBadR8to15 reg w := by
  obtain ⟨h0, h1, h2, h3, h4, h5, h6, h7⟩ := reg_high_ne h
  simp only [decodeWrite, h0, h1, h2, h3, h4, h5, h6, h7, if_false]

theorem decodeWrite_cmd (w : Word) : decodeWrite 0 w = decodeCommand w := rfl

theorem decodeWrite_seed (w : Word) : decodeWrite 2 w = .seed w := rfl

theorem decodeWrite_keyData (w : Word) : decodeWrite 3 w = decodeKeyData w := rfl

theorem decodeKeyData_byte {w : Word} (h : w.extractLsb' 8 24 = 0) :
    decodeKeyData w = .push (w.extractLsb' 0 8) := if_pos h

theorem decodeKeyData_bad {w : Word} (h : w.extractLsb' 8 24 ≠ 0) : decodeKeyData w = .pushBad w :=
  if_neg h

theorem decodeKeyData_zext (b : Byte) : decodeKeyData (zext32 b) = .push b := by
  rw [decodeKeyData_byte (zext32_high b), zext32_low]

theorem decodeCommand_illegal {w : Word} (h : w ∉ legalCommands) : decodeCommand w = .cmdIllegal w := by
  simp only [legalCommands, List.mem_cons, not_or, List.not_mem_nil, not_false_eq_true, and_true] at h
  obtain ⟨h0, h1, h2, h3, h4⟩ := h
  simp only [decodeCommand, h0, h1, h2, h3, h4, if_false]

/-- A command word is one of the five, or illegal. -/
theorem decodeCommand_cases (w : Word) :
    (w = 0x00000000 ∧ decodeCommand w = .nop) ∨ (w = 0x00000001 ∧ decodeCommand w = .start)
      ∨ (w = 0x00000101 ∧ decodeCommand w = .startRw) ∨ (w = 0x00000002 ∧ decodeCommand w = .clear)
      ∨ (w = 0x00000003 ∧ decodeCommand w = .clrerr)
      ∨ (w ∉ legalCommands ∧ decodeCommand w = .cmdIllegal w) := by
  by_cases h : w ∈ legalCommands
  · simp only [legalCommands, List.mem_cons, List.not_mem_nil, or_false] at h
    rcases h with rfl | rfl | rfl | rfl | rfl
    · exact .inl ⟨rfl, rfl⟩
    · exact .inr (.inl ⟨rfl, rfl⟩)
    · exact .inr (.inr (.inl ⟨rfl, rfl⟩))
    · exact .inr (.inr (.inr (.inl ⟨rfl, rfl⟩)))
    · exact .inr (.inr (.inr (.inr (.inl ⟨rfl, rfl⟩))))
  · exact .inr (.inr (.inr (.inr (.inr ⟨h, decodeCommand_illegal h⟩))))

end Sys2Proof
end

