-- ==== Sys2Proof/Laws/Memory.lean ====
section
/-! SUPPORT. The laws of a byte memory: read after write, the canonical form kept, and the sequences it holds. -/

namespace Sys2Proof.Machine

@[simp] theorem Memory.read_write_same (m : Memory) (a : Nat) (b : Byte) :
    Memory.read (Memory.write m a b) a = some b := by
  induction m with
  | nil => simp [Memory.write, Memory.read]
  | cons c m ih =>
    unfold Memory.write
    split
    · simp [Memory.read]
    · split
      · simp [Memory.read]
      · rename_i h₁ h₂
        simp [Memory.read, h₂, ih]

theorem Memory.read_write_other (m : Memory) (a a' : Nat) (b : Byte) (h : a' ≠ a) :
    Memory.read (Memory.write m a b) a' = Memory.read m a' := by
  induction m with
  | nil => simp [Memory.write, Memory.read, h]
  | cons c m ih =>
    unfold Memory.write
    split
    · simp [Memory.read, h]
    · split
      · rename_i h₁ h₂
        simp [Memory.read, h, ← h₂]
      · simp [Memory.read, ih]

theorem Memory.read_write (m : Memory) (a a' : Nat) (b : Byte) :
    Memory.read (Memory.write m a b) a' = if a' = a then some b else Memory.read m a' := by
  split
  · next h => subst h; simp
  · next h => exact Memory.read_write_other m a a' b h

theorem Memory.mem_write (m : Memory) (a : Nat) (b : Byte) (c : Host.Cell)
    (h : c ∈ Memory.write m a b) : c = (a, b) ∨ c ∈ m := by
  induction m with
  | nil => simpa [Memory.write] using h
  | cons d m ih =>
    unfold Memory.write at h
    split at h
    · simpa using h
    · split at h
      · rcases List.mem_cons.mp h with h | h
        · exact .inl h
        · exact .inr (List.mem_cons_of_mem _ h)
      · rcases List.mem_cons.mp h with h | h
        · exact .inr (h ▸ List.mem_cons_self ..)
        · exact (ih h).imp id (List.mem_cons_of_mem _)

/-- Every write keeps the canonical form. -/
theorem Memory.wf_write (m : Memory) (a : Nat) (b : Byte) (h : Memory.wf m) :
    Memory.wf (Memory.write m a b) := by
  induction m with
  | nil => simp [Memory.wf, Memory.write]
  | cons c m ih =>
    obtain ⟨hc, hm⟩ := List.pairwise_cons.mp h
    unfold Memory.write
    split
    · next hlt =>
      refine List.pairwise_cons.mpr ⟨fun d hd => ?_, h⟩
      rcases List.mem_cons.mp hd with rfl | hd
      · exact hlt
      · exact hlt.trans (hc d hd)
    · split
      · next heq => exact List.pairwise_cons.mpr ⟨fun d hd => heq ▸ hc d hd, hm⟩
      · refine List.pairwise_cons.mpr ⟨fun d hd => ?_, ih hm⟩
        rcases Memory.mem_write m a b d hd with rfl | hd
        · simp only; omega
        · exact hc d hd

theorem Memory.below_write (m : Memory) (a n : Nat) (b : Byte) (h : Memory.below m n) (ha : a < n) :
    Memory.below (Memory.write m a b) n := fun c hc => by
  rcases Memory.mem_write m a b c hc with rfl | hc
  · exact ha
  · exact h c hc

/-- The memory of the reset state is canonical. -/
theorem reset_memories_wf : Memory.wf State.reset.key ∧ Memory.wf State.reset.fbuf :=
  ⟨List.Pairwise.nil, List.Pairwise.nil⟩

/-! ### The bytes below a length -/

@[simp] theorem Memory.bytes_zero (m : Memory) : Memory.bytes m 0 = [] := rfl

@[simp] theorem Memory.length_bytes (m : Memory) (n : Nat) : (Memory.bytes m n).length = n := by
  simp [Memory.bytes]

theorem Memory.bytes_succ (m : Memory) (n : Nat) :
    Memory.bytes m (n + 1) = Memory.bytes m n ++ [(Memory.read m n).getD 0] := by
  simp [Memory.bytes, List.range_succ]

theorem Memory.getElem?_bytes (m : Memory) (n a : Nat) (h : a < n) :
    (Memory.bytes m n)[a]? = some ((Memory.read m a).getD 0) := by
  simp [Memory.bytes, h]

theorem Memory.bytes_congr {m m' : Memory} {n : Nat}
    (h : ∀ a, a < n → Memory.read m a = Memory.read m' a) : Memory.bytes m n = Memory.bytes m' n :=
  List.map_congr_left fun a ha => by rw [h a (List.mem_range.mp ha)]

/-- Appending at the length appends to the sequence. -/
theorem Memory.bytes_write_end (m : Memory) (n : Nat) (b : Byte) :
    Memory.bytes (Memory.write m n b) (n + 1) = Memory.bytes m n ++ [b] := by
  rw [Memory.bytes_succ, Memory.read_write_same]
  congr 1
  exact Memory.bytes_congr fun a ha => Memory.read_write_other m n a b ha.ne

theorem Memory.filled_zero (m : Memory) : Memory.filled m 0 := fun _ h => absurd h (Nat.not_lt_zero _)

theorem Memory.filled_write_end (m : Memory) (n : Nat) (b : Byte) (h : Memory.filled m n) :
    Memory.filled (Memory.write m n b) (n + 1) := fun a ha => by
  rw [Memory.read_write]
  split
  · rfl
  · exact h a (by omega)

/-- Where every byte has a value, reading one gives the sequence's element. -/
theorem Memory.filled_read {m : Memory} {n a : Nat} (h : Memory.filled m n) (ha : a < n) :
    Memory.read m a = (Memory.bytes m n)[a]? := by
  rw [Memory.getElem?_bytes m n a ha]
  obtain ⟨b, hb⟩ := Option.isSome_iff_exists.mp (h a ha)
  simp [hb]

end Sys2Proof.Machine
end

