-- ==== Sys2Proof/Laws/State.lean ====
section
/-! SUPPORT. One lemma per field per named update of the state, so that no proof unfolds a record update. -/

namespace Sys2Proof.Machine

/-! ### setSeed -/

@[simp] theorem setSeed_ph (v : Word) (s : State) : (setSeed v s).ph = s.ph := rfl
@[simp] theorem setSeed_seed (v : Word) (s : State) : (setSeed v s).seed = v := rfl
@[simp] theorem setSeed_keylen (v : Word) (s : State) : (setSeed v s).keylen = s.keylen := rfl
@[simp] theorem setSeed_hash (v : Word) (s : State) : (setSeed v s).hash = s.hash := rfl
@[simp] theorem setSeed_done (v : Word) (s : State) : (setSeed v s).done = s.done := rfl
@[simp] theorem setSeed_err (v : Word) (s : State) : (setSeed v s).err = s.err := rfl
@[simp] theorem setSeed_errCode (v : Word) (s : State) : (setSeed v s).errCode = s.errCode := rfl
@[simp] theorem setSeed_rm (v : Word) (s : State) : (setSeed v s).rm = s.rm := rfl
@[simp] theorem setSeed_h (v : Word) (s : State) : (setSeed v s).h = s.h := rfl
@[simp] theorem setSeed_len (v : Word) (s : State) : (setSeed v s).len = s.len := rfl
@[simp] theorem setSeed_i (v : Word) (s : State) : (setSeed v s).i = s.i := rfl
@[simp] theorem setSeed_rem (v : Word) (s : State) : (setSeed v s).rem = s.rem := rfl
@[simp] theorem setSeed_j (v : Word) (s : State) : (setSeed v s).j = s.j := rfl
@[simp] theorem setSeed_flen (v : Word) (s : State) : (setSeed v s).flen = s.flen := rfl
@[simp] theorem setSeed_key (v : Word) (s : State) : (setSeed v s).key = s.key := rfl
@[simp] theorem setSeed_fbuf (v : Word) (s : State) : (setSeed v s).fbuf = s.fbuf := rfl
@[simp] theorem setSeed_config (v : Word) (s : State) : (setSeed v s).config = s.config := rfl
@[simp] theorem setSeed_reply (v : Word) (s : State) : (setSeed v s).reply = s.reply := rfl
@[simp] theorem setSeed_agenda (v : Word) (s : State) : (setSeed v s).agenda = s.agenda := rfl

/-! ### setKeylen -/

@[simp] theorem setKeylen_ph (v : Word) (s : State) : (setKeylen v s).ph = s.ph := rfl
@[simp] theorem setKeylen_seed (v : Word) (s : State) : (setKeylen v s).seed = s.seed := rfl
@[simp] theorem setKeylen_keylen (v : Word) (s : State) : (setKeylen v s).keylen = v := rfl
@[simp] theorem setKeylen_hash (v : Word) (s : State) : (setKeylen v s).hash = s.hash := rfl
@[simp] theorem setKeylen_done (v : Word) (s : State) : (setKeylen v s).done = s.done := rfl
@[simp] theorem setKeylen_err (v : Word) (s : State) : (setKeylen v s).err = s.err := rfl
@[simp] theorem setKeylen_errCode (v : Word) (s : State) : (setKeylen v s).errCode = s.errCode := rfl
@[simp] theorem setKeylen_rm (v : Word) (s : State) : (setKeylen v s).rm = s.rm := rfl
@[simp] theorem setKeylen_h (v : Word) (s : State) : (setKeylen v s).h = s.h := rfl
@[simp] theorem setKeylen_len (v : Word) (s : State) : (setKeylen v s).len = s.len := rfl
@[simp] theorem setKeylen_i (v : Word) (s : State) : (setKeylen v s).i = s.i := rfl
@[simp] theorem setKeylen_rem (v : Word) (s : State) : (setKeylen v s).rem = s.rem := rfl
@[simp] theorem setKeylen_j (v : Word) (s : State) : (setKeylen v s).j = s.j := rfl
@[simp] theorem setKeylen_flen (v : Word) (s : State) : (setKeylen v s).flen = s.flen := rfl
@[simp] theorem setKeylen_key (v : Word) (s : State) : (setKeylen v s).key = s.key := rfl
@[simp] theorem setKeylen_fbuf (v : Word) (s : State) : (setKeylen v s).fbuf = s.fbuf := rfl
@[simp] theorem setKeylen_config (v : Word) (s : State) : (setKeylen v s).config = s.config := rfl
@[simp] theorem setKeylen_reply (v : Word) (s : State) : (setKeylen v s).reply = s.reply := rfl
@[simp] theorem setKeylen_agenda (v : Word) (s : State) : (setKeylen v s).agenda = s.agenda := rfl

/-! ### setPhase -/

@[simp] theorem setPhase_ph (p : Phase) (s : State) : (setPhase p s).ph = p := rfl
@[simp] theorem setPhase_seed (p : Phase) (s : State) : (setPhase p s).seed = s.seed := rfl
@[simp] theorem setPhase_keylen (p : Phase) (s : State) : (setPhase p s).keylen = s.keylen := rfl
@[simp] theorem setPhase_hash (p : Phase) (s : State) : (setPhase p s).hash = s.hash := rfl
@[simp] theorem setPhase_done (p : Phase) (s : State) : (setPhase p s).done = s.done := rfl
@[simp] theorem setPhase_err (p : Phase) (s : State) : (setPhase p s).err = s.err := rfl
@[simp] theorem setPhase_errCode (p : Phase) (s : State) : (setPhase p s).errCode = s.errCode := rfl
@[simp] theorem setPhase_rm (p : Phase) (s : State) : (setPhase p s).rm = s.rm := rfl
@[simp] theorem setPhase_h (p : Phase) (s : State) : (setPhase p s).h = s.h := rfl
@[simp] theorem setPhase_len (p : Phase) (s : State) : (setPhase p s).len = s.len := rfl
@[simp] theorem setPhase_i (p : Phase) (s : State) : (setPhase p s).i = s.i := rfl
@[simp] theorem setPhase_rem (p : Phase) (s : State) : (setPhase p s).rem = s.rem := rfl
@[simp] theorem setPhase_j (p : Phase) (s : State) : (setPhase p s).j = s.j := rfl
@[simp] theorem setPhase_flen (p : Phase) (s : State) : (setPhase p s).flen = s.flen := rfl
@[simp] theorem setPhase_key (p : Phase) (s : State) : (setPhase p s).key = s.key := rfl
@[simp] theorem setPhase_fbuf (p : Phase) (s : State) : (setPhase p s).fbuf = s.fbuf := rfl
@[simp] theorem setPhase_config (p : Phase) (s : State) : (setPhase p s).config = s.config := rfl
@[simp] theorem setPhase_reply (p : Phase) (s : State) : (setPhase p s).reply = s.reply := rfl
@[simp] theorem setPhase_agenda (p : Phase) (s : State) : (setPhase p s).agenda = s.agenda := rfl

/-! ### replyWith -/

@[simp] theorem replyWith_ph (v : Word) (s : State) : (replyWith v s).ph = s.ph := rfl
@[simp] theorem replyWith_seed (v : Word) (s : State) : (replyWith v s).seed = s.seed := rfl
@[simp] theorem replyWith_keylen (v : Word) (s : State) : (replyWith v s).keylen = s.keylen := rfl
@[simp] theorem replyWith_hash (v : Word) (s : State) : (replyWith v s).hash = s.hash := rfl
@[simp] theorem replyWith_done (v : Word) (s : State) : (replyWith v s).done = s.done := rfl
@[simp] theorem replyWith_err (v : Word) (s : State) : (replyWith v s).err = s.err := rfl
@[simp] theorem replyWith_errCode (v : Word) (s : State) : (replyWith v s).errCode = s.errCode := rfl
@[simp] theorem replyWith_rm (v : Word) (s : State) : (replyWith v s).rm = s.rm := rfl
@[simp] theorem replyWith_h (v : Word) (s : State) : (replyWith v s).h = s.h := rfl
@[simp] theorem replyWith_len (v : Word) (s : State) : (replyWith v s).len = s.len := rfl
@[simp] theorem replyWith_i (v : Word) (s : State) : (replyWith v s).i = s.i := rfl
@[simp] theorem replyWith_rem (v : Word) (s : State) : (replyWith v s).rem = s.rem := rfl
@[simp] theorem replyWith_j (v : Word) (s : State) : (replyWith v s).j = s.j := rfl
@[simp] theorem replyWith_flen (v : Word) (s : State) : (replyWith v s).flen = s.flen := rfl
@[simp] theorem replyWith_key (v : Word) (s : State) : (replyWith v s).key = s.key := rfl
@[simp] theorem replyWith_fbuf (v : Word) (s : State) : (replyWith v s).fbuf = s.fbuf := rfl
@[simp] theorem replyWith_config (v : Word) (s : State) : (replyWith v s).config = s.config := rfl
@[simp] theorem replyWith_reply (v : Word) (s : State) : (replyWith v s).reply = some v := rfl
@[simp] theorem replyWith_agenda (v : Word) (s : State) : (replyWith v s).agenda = s.agenda := rfl

/-! ### ackErr -/

@[simp] theorem ackErr_ph (s : State) : (ackErr s).ph = s.ph := rfl
@[simp] theorem ackErr_seed (s : State) : (ackErr s).seed = s.seed := rfl
@[simp] theorem ackErr_keylen (s : State) : (ackErr s).keylen = s.keylen := rfl
@[simp] theorem ackErr_hash (s : State) : (ackErr s).hash = s.hash := rfl
@[simp] theorem ackErr_done (s : State) : (ackErr s).done = s.done := rfl
@[simp] theorem ackErr_err (s : State) : (ackErr s).err = false := rfl
@[simp] theorem ackErr_errCode (s : State) : (ackErr s).errCode = .none := rfl
@[simp] theorem ackErr_rm (s : State) : (ackErr s).rm = s.rm := rfl
@[simp] theorem ackErr_h (s : State) : (ackErr s).h = s.h := rfl
@[simp] theorem ackErr_len (s : State) : (ackErr s).len = s.len := rfl
@[simp] theorem ackErr_i (s : State) : (ackErr s).i = s.i := rfl
@[simp] theorem ackErr_rem (s : State) : (ackErr s).rem = s.rem := rfl
@[simp] theorem ackErr_j (s : State) : (ackErr s).j = s.j := rfl
@[simp] theorem ackErr_flen (s : State) : (ackErr s).flen = s.flen := rfl
@[simp] theorem ackErr_key (s : State) : (ackErr s).key = s.key := rfl
@[simp] theorem ackErr_fbuf (s : State) : (ackErr s).fbuf = s.fbuf := rfl
@[simp] theorem ackErr_config (s : State) : (ackErr s).config = s.config := rfl
@[simp] theorem ackErr_reply (s : State) : (ackErr s).reply = s.reply := rfl
@[simp] theorem ackErr_agenda (s : State) : (ackErr s).agenda = s.agenda := rfl

/-! ### beginRun -/

@[simp] theorem beginRun_ph (rm : Bool) (p : Phase) (s : State) : (beginRun rm p s).ph = p := rfl
@[simp] theorem beginRun_seed (rm : Bool) (p : Phase) (s : State) : (beginRun rm p s).seed = s.seed := rfl
@[simp] theorem beginRun_keylen (rm : Bool) (p : Phase) (s : State) : (beginRun rm p s).keylen = s.keylen := rfl
@[simp] theorem beginRun_hash (rm : Bool) (p : Phase) (s : State) : (beginRun rm p s).hash = s.hash := rfl
@[simp] theorem beginRun_done (rm : Bool) (p : Phase) (s : State) : (beginRun rm p s).done = false := rfl
@[simp] theorem beginRun_err (rm : Bool) (p : Phase) (s : State) : (beginRun rm p s).err = s.err := rfl
@[simp] theorem beginRun_errCode (rm : Bool) (p : Phase) (s : State) : (beginRun rm p s).errCode = s.errCode := rfl
@[simp] theorem beginRun_rm (rm : Bool) (p : Phase) (s : State) : (beginRun rm p s).rm = rm := rfl
@[simp] theorem beginRun_h (rm : Bool) (p : Phase) (s : State) : (beginRun rm p s).h = s.h := rfl
@[simp] theorem beginRun_len (rm : Bool) (p : Phase) (s : State) : (beginRun rm p s).len = s.len := rfl
@[simp] theorem beginRun_i (rm : Bool) (p : Phase) (s : State) : (beginRun rm p s).i = s.i := rfl
@[simp] theorem beginRun_rem (rm : Bool) (p : Phase) (s : State) : (beginRun rm p s).rem = s.rem := rfl
@[simp] theorem beginRun_j (rm : Bool) (p : Phase) (s : State) : (beginRun rm p s).j = 0 := rfl
@[simp] theorem beginRun_flen (rm : Bool) (p : Phase) (s : State) : (beginRun rm p s).flen = 0 := rfl
@[simp] theorem beginRun_key (rm : Bool) (p : Phase) (s : State) : (beginRun rm p s).key = s.key := rfl
@[simp] theorem beginRun_fbuf (rm : Bool) (p : Phase) (s : State) : (beginRun rm p s).fbuf = s.fbuf := rfl
@[simp] theorem beginRun_config (rm : Bool) (p : Phase) (s : State) : (beginRun rm p s).config = s.config := rfl
@[simp] theorem beginRun_reply (rm : Bool) (p : Phase) (s : State) : (beginRun rm p s).reply = s.reply := rfl
@[simp] theorem beginRun_agenda (rm : Bool) (p : Phase) (s : State) : (beginRun rm p s).agenda = s.agenda := rfl

/-! ### popTurn -/

@[simp] theorem popTurn_ph (s : State) : (popTurn s).ph = s.ph := rfl
@[simp] theorem popTurn_seed (s : State) : (popTurn s).seed = s.seed := rfl
@[simp] theorem popTurn_keylen (s : State) : (popTurn s).keylen = s.keylen := rfl
@[simp] theorem popTurn_hash (s : State) : (popTurn s).hash = s.hash := rfl
@[simp] theorem popTurn_done (s : State) : (popTurn s).done = s.done := rfl
@[simp] theorem popTurn_err (s : State) : (popTurn s).err = s.err := rfl
@[simp] theorem popTurn_errCode (s : State) : (popTurn s).errCode = s.errCode := rfl
@[simp] theorem popTurn_rm (s : State) : (popTurn s).rm = s.rm := rfl
@[simp] theorem popTurn_h (s : State) : (popTurn s).h = s.h := rfl
@[simp] theorem popTurn_len (s : State) : (popTurn s).len = s.len := rfl
@[simp] theorem popTurn_i (s : State) : (popTurn s).i = s.i := rfl
@[simp] theorem popTurn_rem (s : State) : (popTurn s).rem = s.rem := rfl
@[simp] theorem popTurn_j (s : State) : (popTurn s).j = s.j := rfl
@[simp] theorem popTurn_flen (s : State) : (popTurn s).flen = s.flen := rfl
@[simp] theorem popTurn_key (s : State) : (popTurn s).key = s.key := rfl
@[simp] theorem popTurn_fbuf (s : State) : (popTurn s).fbuf = s.fbuf := rfl
@[simp] theorem popTurn_config (s : State) : (popTurn s).config = s.config := rfl
@[simp] theorem popTurn_reply (s : State) : (popTurn s).reply = none := rfl
@[simp] theorem popTurn_agenda (s : State) : (popTurn s).agenda = s.agenda.tail := rfl

/-! ### raiseErr -/

@[simp] theorem raiseErr_ph (c : ErrCode) (s : State) : (raiseErr c s).ph = s.ph := by
  unfold raiseErr; split <;> rfl
@[simp] theorem raiseErr_seed (c : ErrCode) (s : State) : (raiseErr c s).seed = s.seed := by
  unfold raiseErr; split <;> rfl
@[simp] theorem raiseErr_keylen (c : ErrCode) (s : State) : (raiseErr c s).keylen = s.keylen := by
  unfold raiseErr; split <;> rfl
@[simp] theorem raiseErr_hash (c : ErrCode) (s : State) : (raiseErr c s).hash = s.hash := by
  unfold raiseErr; split <;> rfl
@[simp] theorem raiseErr_done (c : ErrCode) (s : State) : (raiseErr c s).done = s.done := by
  unfold raiseErr; split <;> rfl
@[simp] theorem raiseErr_err (c : ErrCode) (s : State) : (raiseErr c s).err = true := by
  unfold raiseErr; split <;> simp_all
@[simp] theorem raiseErr_errCode (c : ErrCode) (s : State) :
    (raiseErr c s).errCode = if s.err then s.errCode else c := by
  unfold raiseErr; split <;> rfl
@[simp] theorem raiseErr_rm (c : ErrCode) (s : State) : (raiseErr c s).rm = s.rm := by
  unfold raiseErr; split <;> rfl
@[simp] theorem raiseErr_h (c : ErrCode) (s : State) : (raiseErr c s).h = s.h := by
  unfold raiseErr; split <;> rfl
@[simp] theorem raiseErr_len (c : ErrCode) (s : State) : (raiseErr c s).len = s.len := by
  unfold raiseErr; split <;> rfl
@[simp] theorem raiseErr_i (c : ErrCode) (s : State) : (raiseErr c s).i = s.i := by
  unfold raiseErr; split <;> rfl
@[simp] theorem raiseErr_rem (c : ErrCode) (s : State) : (raiseErr c s).rem = s.rem := by
  unfold raiseErr; split <;> rfl
@[simp] theorem raiseErr_j (c : ErrCode) (s : State) : (raiseErr c s).j = s.j := by
  unfold raiseErr; split <;> rfl
@[simp] theorem raiseErr_flen (c : ErrCode) (s : State) : (raiseErr c s).flen = s.flen := by
  unfold raiseErr; split <;> rfl
@[simp] theorem raiseErr_key (c : ErrCode) (s : State) : (raiseErr c s).key = s.key := by
  unfold raiseErr; split <;> rfl
@[simp] theorem raiseErr_fbuf (c : ErrCode) (s : State) : (raiseErr c s).fbuf = s.fbuf := by
  unfold raiseErr; split <;> rfl
@[simp] theorem raiseErr_config (c : ErrCode) (s : State) : (raiseErr c s).config = s.config := by
  unfold raiseErr; split <;> rfl
@[simp] theorem raiseErr_reply (c : ErrCode) (s : State) : (raiseErr c s).reply = s.reply := by
  unfold raiseErr; split <;> rfl
@[simp] theorem raiseErr_agenda (c : ErrCode) (s : State) : (raiseErr c s).agenda = s.agenda := by
  unfold raiseErr; split <;> rfl

/-! ### resetEvent -/

@[simp] theorem resetEvent_ph (s : State) : (resetEvent s).ph = State.reset.ph := rfl
@[simp] theorem resetEvent_seed (s : State) : (resetEvent s).seed = State.reset.seed := rfl
@[simp] theorem resetEvent_keylen (s : State) : (resetEvent s).keylen = State.reset.keylen := rfl
@[simp] theorem resetEvent_hash (s : State) : (resetEvent s).hash = State.reset.hash := rfl
@[simp] theorem resetEvent_done (s : State) : (resetEvent s).done = State.reset.done := rfl
@[simp] theorem resetEvent_err (s : State) : (resetEvent s).err = State.reset.err := rfl
@[simp] theorem resetEvent_errCode (s : State) : (resetEvent s).errCode = State.reset.errCode := rfl
@[simp] theorem resetEvent_rm (s : State) : (resetEvent s).rm = State.reset.rm := rfl
@[simp] theorem resetEvent_h (s : State) : (resetEvent s).h = State.reset.h := rfl
@[simp] theorem resetEvent_len (s : State) : (resetEvent s).len = State.reset.len := rfl
@[simp] theorem resetEvent_i (s : State) : (resetEvent s).i = State.reset.i := rfl
@[simp] theorem resetEvent_rem (s : State) : (resetEvent s).rem = State.reset.rem := rfl
@[simp] theorem resetEvent_j (s : State) : (resetEvent s).j = State.reset.j := rfl
@[simp] theorem resetEvent_flen (s : State) : (resetEvent s).flen = State.reset.flen := rfl
@[simp] theorem resetEvent_key (s : State) : (resetEvent s).key = State.reset.key := rfl
@[simp] theorem resetEvent_fbuf (s : State) : (resetEvent s).fbuf = State.reset.fbuf := rfl
@[simp] theorem resetEvent_config (s : State) : (resetEvent s).config = s.config := rfl
@[simp] theorem resetEvent_reply (s : State) : (resetEvent s).reply = State.reset.reply := rfl
@[simp] theorem resetEvent_agenda (s : State) : (resetEvent s).agenda = s.agenda := rfl

end Sys2Proof.Machine
end

