-- ==== Sys2Proof/Laws/Ops.lean ====
section
/-! SUPPORT. What each shared operation can do, said once. -/

namespace Sys2Proof.Machine

/-! ### Errors -/

/-- The error mechanism in one formula (R202). -/
theorem raiseErr_eq_withError (c : ErrCode) (s : State) : raiseErr c s = withError c s := by
  cases s with | mk ph seed keylen hash done err errCode rm h len i rem j flen key fbuf config reply agenda =>
  cases err <;> rfl

theorem busy_eq_true {s : State} (h : s.ph ≠ .idle) : busy s = true := by simp [busy, h]

theorem busy_eq_false {s : State} (h : s.ph = .idle) : busy s = false := by simp [busy, h]

theorem whenIdle_busy {s : State} (h : s.ph ≠ .idle) (f : State → Host.Outcome State Fault Refusal) :
    whenIdle s f = .next (withError .busyWrite s) := by
  simp [whenIdle, busy_eq_true h, raiseErr_eq_withError]

theorem whenIdle_idle {s : State} (h : s.ph = .idle) (f : State → Host.Outcome State Fault Refusal) :
    whenIdle s f = f s := by
  simp [whenIdle, busy_eq_false h]

/-! ### Bytes of the two spaces -/

theorem readByte_eq_some {sp : Space} {a : Nat} {s : State} {b : Byte} :
    readByte sp a s = some b ↔ a < liveLength sp s ∧ Memory.read (cells sp s) a = some b := by
  unfold readByte
  split <;> simp_all

/-- Reading inside a filled space gives the element of its sequence. -/
theorem readByte_of_filled {sp : Space} {a : Nat} {s : State}
    (hf : Memory.filled (cells sp s) (liveLength sp s)) (ha : a < liveLength sp s) :
    readByte sp a s = (Memory.bytes (cells sp s) (liveLength sp s))[a]? := by
  rw [readByte, if_pos ha, Memory.filled_read hf ha]

theorem readWord_of_bytes {sp : Space} {a : Nat} {s : State} {b0 b1 b2 b3 : Byte}
    (h0 : readByte sp a s = some b0) (h1 : readByte sp (a + 1) s = some b1)
    (h2 : readByte sp (a + 2) s = some b2) (h3 : readByte sp (a + 3) s = some b3) :
    readWord sp a s = some (wordOfBytes b0 b1 b2 b3) := by
  simp [readWord, h0, h1, h2, h3]

theorem writeKey_of_lt {a : Nat} {s : State} (b : Byte) (h : a < s.config.keyCap.toNat) :
    writeKey a b s = some { s with key := Memory.write s.key a b } := by
  simp [writeKey, h]

theorem writeFbuf_of_lt {a : Nat} {s : State} (b : Byte) (h : a < s.config.keyCap.toNat) :
    writeFbuf a b s = some { s with fbuf := Memory.write s.fbuf a b } := by
  simp [writeFbuf, h]

/-! ### What the engine's operands depend on -/

/-- Two states with the same memories, lengths and positions give the engine the same operands. -/
structure SameOperands (s u : State) : Prop where
  key : u.key = s.key
  fbuf : u.fbuf = s.fbuf
  keylen : u.keylen = s.keylen
  flen : u.flen = s.flen
  rm : u.rm = s.rm
  h : u.h = s.h
  i : u.i = s.i
  rem : u.rem = s.rem

theorem SameOperands.readByte {s u : State} (e : SameOperands s u) (sp : Space) (a : Nat) :
    readByte sp a u = readByte sp a s := by
  have hc : cells sp u = cells sp s := by cases sp <;> simp [cells, e.key, e.fbuf]
  have hl : liveLength sp u = liveLength sp s := by cases sp <;> simp [liveLength, e.keylen, e.flen]
  rw [Machine.readByte, Machine.readByte, hc, hl]

theorem SameOperands.srcSpace {s u : State} (e : SameOperands s u) : srcSpace u = srcSpace s := by
  simp [Machine.srcSpace, e.rm]

theorem SameOperands.srcChunk {s u : State} (e : SameOperands s u) : srcChunk u = srcChunk s := by
  simp [Machine.srcChunk, readWord, e.srcSpace, e.i, e.readByte]

theorem SameOperands.tailXors {s u : State} (e : SameOperands s u) : tailXors u = tailXors s := by
  have hb : ∀ applies off sh h, xorTailByte applies off sh u h = xorTailByte applies off sh s h :=
    fun applies off sh h => by simp [xorTailByte, e.srcSpace, e.i, e.readByte]
  simp only [Machine.tailXors, e.rem, e.h]
  congr 1
  · rw [hb]
    congr 1
    funext h
    exact hb ..
  · funext h
    exact hb ..

/-! ### push -/

/-- Everything a push can do: refused in a run, refused when full, or one byte appended. -/
theorem execPush_idle {s : State} (b : Byte) (hp : s.ph = .idle) (hlt : s.keylen < s.config.keyCap) :
    execPush b s =
      .next { s with key := Memory.write s.key s.keylen.toNat b, keylen := s.keylen + 1 } := by
  have hne : s.keylen ≠ s.config.keyCap := fun h => by simp [h] at hlt
  rw [execPush, whenIdle_idle hp, if_neg hne, writeKey_of_lt b (BitVec.lt_def.mp hlt)]
  rfl

theorem execPush_full {s : State} (b : Byte) (hp : s.ph = .idle) (he : s.keylen = s.config.keyCap) :
    execPush b s = .next (withError .keyOverflow s) := by
  rw [execPush, whenIdle_idle hp, if_pos he, raiseErr_eq_withError]

/-- Inversion: when a push answers, it did one of these. -/
theorem execPush_cases {s t : State} {b : Byte} (h : execPush b s = .next t) :
    (s.ph ≠ .idle ∧ t = withError .busyWrite s)
      ∨ (s.ph = .idle ∧ s.keylen = s.config.keyCap ∧ t = withError .keyOverflow s)
      ∨ (s.ph = .idle ∧ s.keylen.toNat < s.config.keyCap.toNat
          ∧ t = { s with key := Memory.write s.key s.keylen.toNat b, keylen := s.keylen + 1 }) := by
  by_cases hp : s.ph = .idle
  · by_cases he : s.keylen = s.config.keyCap
    · rw [execPush_full b hp he] at h
      cases h
      exact .inr (.inl ⟨hp, he, rfl⟩)
    · rw [execPush, whenIdle_idle hp, if_neg he] at h
      by_cases hlt : s.keylen.toNat < s.config.keyCap.toNat
      · rw [writeKey_of_lt b hlt] at h
        cases h
        exact .inr (.inr ⟨hp, hlt, rfl⟩)
      · simp [writeKey, hlt] at h
  · rw [execPush, whenIdle_busy hp] at h
    cases h
    exact .inl ⟨hp, rfl⟩

/-! ### Engine rules: what each can do -/

theorem execFiltByte_cases {s t : State} (h : execFiltByte s = .next t) :
    s.ph = .filt ∧ s.j < s.keylen ∧ ∃ b, readByte .key s.j.toNat s = some b
      ∧ ((isWs b = true ∧ t = { s with j := s.j + 1 })
        ∨ (isWs b = false ∧ s.flen.toNat < s.config.keyCap.toNat
            ∧ t = { s with fbuf := Memory.write s.fbuf s.flen.toNat b, flen := s.flen + 1, j := s.j + 1 })) := by
  unfold execFiltByte at h
  split at h
  · next hc =>
    refine ⟨hc.1, hc.2, ?_⟩
    split at h
    · next b hb =>
      refine ⟨b, hb, ?_⟩
      unfold filtKeep at h
      split at h
      · next hw =>
        cases h
        exact .inl ⟨hw, by rw [← hc.1]⟩
      · next hw =>
        by_cases hlt : s.flen.toNat < s.config.keyCap.toNat
        · rw [writeFbuf_of_lt b hlt] at h
          cases h
          exact .inr ⟨by simpa using hw, hlt, by rw [← hc.1]⟩
        · simp [writeFbuf, hlt] at h
    · cases h
  · cases h

theorem execFiltExit_cases {s t : State} (h : execFiltExit s = .next t) :
    s.ph = .filt ∧ s.j = s.keylen ∧ t = { s with ph := .init } := by
  unfold execFiltExit at h
  split at h
  · next hc => cases h; exact ⟨hc.1, hc.2, rfl⟩
  · cases h

theorem execInit_cases {s t : State} (h : execInit s = .next t) :
    s.ph = .init ∧ t = { s with
      len := srcLen s, h := s.seed ^^^ srcLen s, i := 0, rem := srcLen s, ph := .body } := by
  unfold execInit at h
  split at h
  · next hc => cases h; exact ⟨hc, rfl⟩
  · cases h

theorem execBodyChunk_cases {s t : State} (h : execBodyChunk s = .next t) :
    s.ph = .body ∧ 4 ≤ s.rem ∧ ∃ k, srcChunk s = some k
      ∧ t = { s with h := bodyStep s.h k, i := s.i + 4, rem := s.rem - 4 } := by
  unfold execBodyChunk at h
  split at h
  · next hc =>
    split at h
    · next k hk => cases h; exact ⟨hc.1, hc.2, k, hk, by rw [← hc.1]⟩
    · cases h
  · cases h

theorem execBodyExit_cases {s t : State} (h : execBodyExit s = .next t) :
    s.ph = .body ∧ s.rem < 4 ∧ t = { s with ph := .tail } := by
  unfold execBodyExit at h
  split at h
  · next hc => cases h; exact ⟨hc.1, hc.2, rfl⟩
  · cases h

theorem execTail_cases {s t : State} (h : execTail s = .next t) :
    s.ph = .tail ∧ ∃ x, tailXors s = some x
      ∧ t = { s with h := if 1 ≤ s.rem then mul32 x mixMultiplier else x, ph := .final } := by
  unfold execTail at h
  split at h
  · next hc =>
    split at h
    · next x hx => cases h; exact ⟨hc, x, hx, rfl⟩
    · cases h
  · cases h

theorem execFinal_cases {s t : State} (h : execFinal s = .next t) :
    s.ph = .final
      ∧ t = { s with h := avalanche s.h, hash := avalanche s.h, done := true, ph := .idle } := by
  unfold execFinal at h
  split at h
  · next hc => cases h; exact ⟨hc, rfl⟩
  · cases h

theorem execIdle_cases {s t : State} (h : execIdle s = .next t) : s.ph = .idle ∧ t = s := by
  unfold execIdle at h
  split at h
  · next hc => cases h; exact ⟨hc, rfl⟩
  · cases h

end Sys2Proof.Machine
end

