-- ==== Sys2Proof/Laws/Exec.lean ====
section
/-! SUPPORT. What exec can do with a host transaction, said once; and the engine's turn, phase by phase. -/

namespace Sys2Proof.Machine

/-! ### The guarded writes, each over the shared busy test -/

theorem exec_nop (s : State) : exec .nop s = whenIdle s fun s => .next s := rfl

theorem exec_start (s : State) :
    exec .start s = whenIdle s fun s => .next (if s.err then s else beginRun false .init s) := rfl

theorem exec_startRw (s : State) :
    exec .startRw s = whenIdle s fun s => .next (if s.err then s else beginRun true .filt s) := rfl

theorem exec_clear (s : State) : exec .clear s = whenIdle s fun s => .next (setKeylen 0 s) := rfl

theorem exec_clrerr (s : State) : exec .clrerr s = whenIdle s fun s => .next (ackErr s) := rfl

theorem exec_seed (v : Word) (s : State) :
    exec (.seed v) s = whenIdle s fun s => .next (setSeed v s) := rfl

theorem exec_push (b : Byte) (s : State) : exec (.push b) s = execPush b s := rfl

theorem exec_cmdIllegal (w : Word) (s : State) :
    exec (.cmdIllegal w) s = whenIdle s fun s => .next (withError .illegalCmd s) := by
  simp only [exec, execCmdIllegal, raiseErr_eq_withError]

theorem exec_pushBad (w : Word) (s : State) :
    exec (.pushBad w) s = whenIdle s fun s => .next (withError .badByte s) := by
  simp only [exec, execPushBad, raiseErr_eq_withError]

theorem execPush_busy {s : State} (b : Byte) (hp : s.ph ≠ .idle) :
    execPush b s = .next (withError .busyWrite s) := whenIdle_busy hp _

theorem refuseAccess_eq (s : State) : refuseAccess s = .next (withError .badAccess s) := by
  rw [refuseAccess, raiseErr_eq_withError]

/-- What an accepted write does, row by row (R163 to R169). -/
def Accepted (i : Instr) (s t : State) : Prop :=
  (i = .nop ∧ t = s)
    ∨ ((i = .start ∨ i = .startRw) ∧ s.err = true ∧ t = s)
    ∨ (i = .start ∧ s.err = false ∧ t = beginRun false .init s)
    ∨ (i = .startRw ∧ s.err = false ∧ t = beginRun true .filt s)
    ∨ (i = .clear ∧ t = setKeylen 0 s)
    ∨ (i = .clrerr ∧ t = ackErr s)
    ∨ (∃ v, i = .seed v ∧ t = setSeed v s)
    ∨ ∃ b, i = .push b ∧ s.keylen.toNat < s.config.keyCap.toNat
        ∧ t = { s with key := Memory.write s.key s.keylen.toNat b, keylen := s.keylen + 1 }

/-- Everything a host transaction can do: it replies, or it raises one error, or it is accepted in IDLE. -/
def TransactionEffect (i : Instr) (s t : State) : Prop :=
  (isRead i = true ∧ ∃ v, t = replyWith v s)
    ∨ (isRead i = false ∧ ∃ c, c ≠ .none ∧ (s.ph ≠ .idle → c = .busyWrite ∨ c = .badAccess)
        ∧ (s.ph = .idle → c ≠ .busyWrite) ∧ t = withError c s)
    ∨ (isRead i = false ∧ s.ph = .idle ∧ Accepted i s t)

theorem TransactionEffect.of_refused {i : Instr} {s t : State} (c : ErrCode) (hr : isRead i = false)
    (hn : c ≠ .none) (hb : s.ph ≠ .idle → c = .busyWrite ∨ c = .badAccess)
    (hi : s.ph = .idle → c ≠ .busyWrite) (ht : t = withError c s) : TransactionEffect i s t :=
  .inr (.inl ⟨hr, c, hn, hb, hi, ht⟩)

/-- A guarded write is refused in a run, and does what it does in IDLE. -/
theorem TransactionEffect.of_guarded {i : Instr} {s t : State}
    {f : State → Host.Outcome State Fault Refusal} (hr : isRead i = false) (h : whenIdle s f = .next t)
    (hidle : s.ph = .idle → f s = .next t → TransactionEffect i s t) : TransactionEffect i s t := by
  by_cases hp : s.ph = .idle
  · rw [whenIdle_idle hp] at h
    exact hidle hp h
  · rw [whenIdle_busy hp] at h
    cases h
    exact .of_refused .busyWrite hr (by simp) (fun _ => .inl rfl) (fun h => absurd h hp) rfl

/-- Inversion of a host transaction. -/
theorem execTransaction_cases {i : Instr} {s t : State} (hi : isTransaction i = true)
    (h : exec i s = .next t) : TransactionEffect i s t := by
  cases i
  case nop =>
    simp only [exec, execNop] at h
    exact .of_guarded rfl h fun hp he => by cases he; exact .inr (.inr ⟨rfl, hp, .inl ⟨rfl, rfl⟩⟩)
  case start =>
    simp only [exec, execStart] at h
    refine .of_guarded rfl h fun hp he => .inr (.inr ⟨rfl, hp, ?_⟩)
    by_cases hr : s.err = true
    · rw [if_pos hr] at he; cases he; exact .inr (.inl ⟨.inl rfl, hr, rfl⟩)
    · rw [if_neg hr] at he; cases he; exact .inr (.inr (.inl ⟨rfl, by simpa using hr, rfl⟩))
  case startRw =>
    simp only [exec, execStartRw] at h
    refine .of_guarded rfl h fun hp he => .inr (.inr ⟨rfl, hp, ?_⟩)
    by_cases hr : s.err = true
    · rw [if_pos hr] at he; cases he; exact .inr (.inl ⟨.inr rfl, hr, rfl⟩)
    · rw [if_neg hr] at he; cases he; exact .inr (.inr (.inr (.inl ⟨rfl, by simpa using hr, rfl⟩)))
  case clear =>
    simp only [exec, execClear] at h
    exact .of_guarded rfl h fun hp he => by
      cases he; exact .inr (.inr ⟨rfl, hp, .inr (.inr (.inr (.inr (.inl ⟨rfl, rfl⟩))))⟩)
  case clrerr =>
    simp only [exec, execClrerr] at h
    exact .of_guarded rfl h fun hp he => by
      cases he; exact .inr (.inr ⟨rfl, hp, .inr (.inr (.inr (.inr (.inr (.inl ⟨rfl, rfl⟩)))))⟩)
  case seed v =>
    simp only [exec, execSeed] at h
    exact .of_guarded rfl h fun hp he => by
      cases he
      exact .inr (.inr ⟨rfl, hp, .inr (.inr (.inr (.inr (.inr (.inr (.inl ⟨v, rfl, rfl⟩))))))⟩)
  case push b =>
    rcases execPush_cases h with ⟨hp, ht⟩ | ⟨hp, -, ht⟩ | ⟨hp, hlt, ht⟩
    · exact .of_refused .busyWrite rfl (by simp) (fun _ => .inl rfl) (fun h => absurd h hp) ht
    · exact .of_refused .keyOverflow rfl (by simp) (fun h => absurd hp h) (fun _ => by simp) ht
    · exact .inr (.inr ⟨rfl, hp, .inr (.inr (.inr (.inr (.inr (.inr (.inr ⟨b, rfl, hlt, ht⟩))))))⟩)
  case cmdIllegal w =>
    simp only [exec, execCmdIllegal] at h
    exact .of_guarded rfl h fun hp he => by
      cases he
      exact .of_refused .illegalCmd rfl (by simp) (fun h => absurd hp h) (fun _ => by simp)
        (raiseErr_eq_withError ..)
  case pushBad w =>
    simp only [exec, execPushBad] at h
    exact .of_guarded rfl h fun hp he => by
      cases he
      exact .of_refused .badByte rfl (by simp) (fun h => absurd hp h) (fun _ => by simp)
        (raiseErr_eq_withError ..)
  case wrBadR1 | wrBadR4 | wrBadR5 | wrBadR6 | wrBadR7 | wrBadR8to15 =>
    cases h
    exact .of_refused .badAccess rfl (by simp) (fun _ => .inr rfl) (fun _ => by simp)
      (raiseErr_eq_withError ..)
  case rdStatus | rdSeed | rdKeylen | rdHash | rdKeycap | rdZeroR0 | rdZeroR3 | rdZeroR7 | rdZeroR8to15 =>
    cases h
    exact .inl ⟨rfl, _, rfl⟩
  case idle | filtByte | filtExit | init | bodyChunk | bodyExit | tail | final => cases hi

/-! ### The engine's turn -/

theorem engineTurn_idle {s : State} (h : s.ph = .idle) : engineTurn s = exec .idle s := by
  simp [engineTurn, engineRule, h, phaseCode, decodePhase]

theorem engineTurn_filtByte {s : State} (h : s.ph = .filt) (hj : s.j < s.keylen) :
    engineTurn s = exec .filtByte s := by
  have hn : ¬ s.keylen < s.j := BitVec.not_lt.mpr (BitVec.le_of_lt hj)
  simp [engineTurn, engineRule, h, hn, phaseCode, decodePhase, loopGoesOn, hj]

theorem engineTurn_filtExit {s : State} (h : s.ph = .filt) (hj : s.j = s.keylen) :
    engineTurn s = exec .filtExit s := by
  simp [engineTurn, engineRule, h, hj, phaseCode, decodePhase, loopGoesOn]

theorem engineTurn_init {s : State} (h : s.ph = .init) : engineTurn s = exec .init s := by
  simp [engineTurn, engineRule, h, phaseCode, decodePhase]

theorem engineTurn_bodyChunk {s : State} (h : s.ph = .body) (hr : 4 ≤ s.rem) :
    engineTurn s = exec .bodyChunk s := by
  have hr' : 4#32 ≤ s.rem := hr
  simp [engineTurn, engineRule, h, phaseCode, decodePhase, loopGoesOn, hr']

theorem engineTurn_bodyExit {s : State} (h : s.ph = .body) (hr : s.rem < 4) :
    engineTurn s = exec .bodyExit s := by
  have hn : ¬ 4#32 ≤ s.rem := BitVec.not_le.mpr hr
  simp [engineTurn, engineRule, h, phaseCode, decodePhase, loopGoesOn, hn]

theorem engineTurn_tail {s : State} (h : s.ph = .tail) : engineTurn s = exec .tail s := by
  simp [engineTurn, engineRule, h, phaseCode, decodePhase]

theorem engineTurn_final {s : State} (h : s.ph = .final) : engineTurn s = exec .final s := by
  simp [engineTurn, engineRule, h, phaseCode, decodePhase]

/-- In FILT with `j` above KEYLEN no rule is enabled (log 9). -/
theorem engineTurn_stuck {s : State} (h : s.ph = .filt) (hj : s.keylen < s.j) :
    engineTurn s = .fault .noRuleEnabled := by
  simp [engineTurn, engineRule, h, hj]

/-- Inversion of the engine's turn: it ran one of the eight rules. -/
theorem engineTurn_cases {s t : State} (h : engineTurn s = .next t) :
    exec .idle s = .next t ∨ exec .filtByte s = .next t ∨ exec .filtExit s = .next t
      ∨ exec .init s = .next t ∨ exec .bodyChunk s = .next t ∨ exec .bodyExit s = .next t
      ∨ exec .tail s = .next t ∨ exec .final s = .next t := by
  match hp : s.ph with
  | .idle => exact .inl (engineTurn_idle hp ▸ h)
  | .filt =>
    by_cases h1 : s.j < s.keylen
    · exact .inr (.inl (engineTurn_filtByte hp h1 ▸ h))
    · by_cases h2 : s.j = s.keylen
      · exact .inr (.inr (.inl (engineTurn_filtExit hp h2 ▸ h)))
      · have h3 : s.keylen < s.j := by
          have hne : s.j.toNat ≠ s.keylen.toNat := fun e => h2 (BitVec.eq_of_toNat_eq e)
          rw [BitVec.lt_def] at h1 ⊢
          omega
        rw [engineTurn_stuck hp h3] at h
        cases h
  | .init => exact .inr (.inr (.inr (.inl (engineTurn_init hp ▸ h))))
  | .body =>
    by_cases h1 : 4 ≤ s.rem
    · exact .inr (.inr (.inr (.inr (.inl (engineTurn_bodyChunk hp h1 ▸ h)))))
    · have h2 : s.rem < 4 := BitVec.not_le.mp h1
      exact .inr (.inr (.inr (.inr (.inr (.inl (engineTurn_bodyExit hp h2 ▸ h))))))
  | .tail => exact .inr (.inr (.inr (.inr (.inr (.inr (.inl (engineTurn_tail hp ▸ h)))))))
  | .final => exact .inr (.inr (.inr (.inr (.inr (.inr (.inr (engineTurn_final hp ▸ h)))))))

end Sys2Proof.Machine
end

