-- ==== Sys2Proof/Laws/PerInstr.lean ====
section
/-! SUPPORT. The per-instruction family TableRow: the encoder's word of every well-formed row meets the mask and match
that spec/opcode_table.json gives the row. -/

namespace Sys2Proof.Laws.TableRow

/-- A row's pattern: mask and match of a transaction word, or the label of a phase. -/
inductive Pattern where
  /-- Format `TW`. -/
  | tw (mask value : Tw)
  /-- Format `PH`, whose mask covers all three bits. -/
  | ph (value : BitVec 3)
  deriving DecidableEq, Repr

/-- The `mask` and `match` columns of spec/opcode_table.json, row by row. -/
def pattern : Instr → Pattern
  | .nop => .tw 0x1FFFFFFFFF 0x1000000000
  | .start => .tw 0x1FFFFFFFFF 0x1000000001
  | .startRw => .tw 0x1FFFFFFFFF 0x1000000101
  | .clear => .tw 0x1FFFFFFFFF 0x1000000002
  | .clrerr => .tw 0x1FFFFFFFFF 0x1000000003
  | .seed _ => .tw 0x1F00000000 0x1200000000
  | .push _ => .tw 0x1FFFFFFF00 0x1300000000
  | .rdStatus _ => .tw 0x1F00000000 0x0100000000
  | .rdSeed _ => .tw 0x1F00000000 0x0200000000
  | .rdKeylen _ => .tw 0x1F00000000 0x0400000000
  | .rdHash _ => .tw 0x1F00000000 0x0500000000
  | .rdKeycap _ => .tw 0x1F00000000 0x0600000000
  | .cmdIllegal _ => .tw 0x1F00000000 0x1000000000
  | .pushBad _ => .tw 0x1F00000000 0x1300000000
  | .wrBadR1 _ => .tw 0x1F00000000 0x1100000000
  | .wrBadR4 _ => .tw 0x1F00000000 0x1400000000
  | .wrBadR5 _ => .tw 0x1F00000000 0x1500000000
  | .wrBadR6 _ => .tw 0x1F00000000 0x1600000000
  | .wrBadR7 _ => .tw 0x1F00000000 0x1700000000
  | .wrBadR8to15 _ _ => .tw 0x1800000000 0x1800000000
  | .rdZeroR0 _ => .tw 0x1F00000000 0x0000000000
  | .rdZeroR3 _ => .tw 0x1F00000000 0x0300000000
  | .rdZeroR7 _ => .tw 0x1F00000000 0x0700000000
  | .rdZeroR8to15 _ _ => .tw 0x1800000000 0x0800000000
  | .idle => .ph 0x0
  | .filtByte => .ph 0x1
  | .filtExit => .ph 0x1
  | .init => .ph 0x2
  | .bodyChunk => .ph 0x3
  | .bodyExit => .ph 0x3
  | .tail => .ph 0x4
  | .final => .ph 0x5

/-- A word meets a pattern of its format. -/
def meets : Code → Pattern → Prop
  | .tw word, .tw mask value => word &&& mask = value
  | .ph label, .ph value => label = value
  | .tw _, .ph _ => False
  | .ph _, .tw _ _ => False

/-- The word of a well-formed row meets the row's pattern. -/
def Statement (i : Instr) : Prop := i.wf = true → meets (encode i) (pattern i)

/-! ### Masking a word masks its fields -/

theorem makeTw_and (a b : Bool) (r q : BitVec 4) (w v : Word) :
    makeTw a r w &&& makeTw b q v = makeTw (a && b) (r &&& q) (w &&& v) := by
  apply BitVec.eq_of_getLsbD_eq
  intro k hk
  rw [BitVec.getLsbD_and, getLsbD_makeTw, getLsbD_makeTw, getLsbD_makeTw]
  split
  · simp
  · split
    · simp
    · simp [show k = 36 by omega]

/-- The mask 1F00000000 keeps `we` and `reg`. -/
theorem mask_selects (we : Bool) (reg : BitVec 4) (w : Word) :
    makeTw we reg w &&& 0x1F00000000 = makeTw we reg 0 := by
  have h : (0x1F00000000 : Tw) = makeTw true 15 0 := rfl
  rw [h, makeTw_and]
  congr 1
  · simp
  · revert reg; decide
  · simp

/-- The mask 1800000000 keeps `we` and the top bit of `reg`. -/
theorem mask_selects_high (we : Bool) {reg : BitVec 4} (w : Word) (h : 8 ≤ reg) :
    makeTw we reg w &&& 0x1800000000 = makeTw we 8 0 := by
  have hm : (0x1800000000 : Tw) = makeTw true 8 0 := rfl
  rw [hm, makeTw_and]
  congr 1
  · simp
  · revert reg; decide
  · simp

/-- The mask of `push` keeps everything but the byte. -/
theorem mask_selects_push (b : Byte) : makeTw true 3 (zext32 b) &&& 0x1FFFFFFF00 = 0x1300000000 := by
  have hm : (0x1FFFFFFF00 : Tw) = makeTw true 15 0xFFFFFF00 := rfl
  have hv : (0x1300000000 : Tw) = makeTw true 3 0 := rfl
  rw [hm, hv, makeTw_and]
  congr 1
  revert b
  decide

/-! ### One lemma per row -/

theorem nop : Statement .nop := fun _ => rfl
theorem start : Statement .start := fun _ => rfl
theorem startRw : Statement .startRw := fun _ => rfl
theorem clear : Statement .clear := fun _ => rfl
theorem clrerr : Statement .clrerr := fun _ => rfl
theorem seed (imm32 : Word) : Statement (.seed imm32) := fun _ => mask_selects true 2 imm32
theorem push (imm8 : Byte) : Statement (.push imm8) := fun _ => mask_selects_push imm8
theorem rdStatus (w : Word) : Statement (.rdStatus w) := fun _ => mask_selects false 1 w
theorem rdSeed (w : Word) : Statement (.rdSeed w) := fun _ => mask_selects false 2 w
theorem rdKeylen (w : Word) : Statement (.rdKeylen w) := fun _ => mask_selects false 4 w
theorem rdHash (w : Word) : Statement (.rdHash w) := fun _ => mask_selects false 5 w
theorem rdKeycap (w : Word) : Statement (.rdKeycap w) := fun _ => mask_selects false 6 w
theorem cmdIllegal (w : Word) : Statement (.cmdIllegal w) := fun _ => mask_selects true 0 w
theorem pushBad (w : Word) : Statement (.pushBad w) := fun _ => mask_selects true 3 w
theorem wrBadR1 (w : Word) : Statement (.wrBadR1 w) := fun _ => mask_selects true 1 w
theorem wrBadR4 (w : Word) : Statement (.wrBadR4 w) := fun _ => mask_selects true 4 w
theorem wrBadR5 (w : Word) : Statement (.wrBadR5 w) := fun _ => mask_selects true 5 w
theorem wrBadR6 (w : Word) : Statement (.wrBadR6 w) := fun _ => mask_selects true 6 w
theorem wrBadR7 (w : Word) : Statement (.wrBadR7 w) := fun _ => mask_selects true 7 w

theorem wrBadR8to15 (reg : BitVec 4) (w : Word) : Statement (.wrBadR8to15 reg w) := fun h =>
  mask_selects_high true w (of_decide_eq_true h)

theorem rdZeroR0 (w : Word) : Statement (.rdZeroR0 w) := fun _ => mask_selects false 0 w
theorem rdZeroR3 (w : Word) : Statement (.rdZeroR3 w) := fun _ => mask_selects false 3 w
theorem rdZeroR7 (w : Word) : Statement (.rdZeroR7 w) := fun _ => mask_selects false 7 w

theorem rdZeroR8to15 (reg : BitVec 4) (w : Word) : Statement (.rdZeroR8to15 reg w) := fun h =>
  mask_selects_high false w (of_decide_eq_true h)

theorem idle : Statement .idle := fun _ => rfl
theorem filtByte : Statement .filtByte := fun _ => rfl
theorem filtExit : Statement .filtExit := fun _ => rfl
theorem init : Statement .init := fun _ => rfl
theorem bodyChunk : Statement .bodyChunk := fun _ => rfl
theorem bodyExit : Statement .bodyExit := fun _ => rfl
theorem tail : Statement .tail := fun _ => rfl
theorem final : Statement .final := fun _ => rfl

end Sys2Proof.Laws.TableRow
end

