-- ==== Sys2Proof/Laws/Run.lean ====
section
/-! SUPPORT. What a state that meets the invariant gives the engine: the bytes its next rule reads, as elements of the
sequence the run hashes. -/

namespace Sys2Proof.Machine

theorem toNat_succ_of_lt {a b : Word} (h : a.toNat < b.toNat) : (a + 1).toNat = a.toNat + 1 := by
  have := b.isLt
  rw [BitVec.toNat_add]
  simp
  omega

/-- A guarded write answers a next state where its accepted case does. -/
theorem whenIdle_next {s : State} {f : State → Host.Outcome State Fault Refusal}
    (h : s.ph = .idle → ∃ t, f s = .next t) : ∃ t, whenIdle s f = .next t := by
  by_cases hp : s.ph = .idle
  · rw [whenIdle_idle hp]
    exact h hp
  · rw [whenIdle_busy hp]
    exact ⟨_, rfl⟩

/-! ### The sequences -/

@[simp] theorem length_keySeq (s : State) : (keySeq s).length = s.keylen.toNat := by simp [keySeq]

@[simp] theorem length_fbufSeq (s : State) : (fbufSeq s).length = s.flen.toNat := by simp [fbufSeq]

theorem length_srcSeq (s : State) : (srcSeq s).length = (srcLen s).toNat := by
  unfold srcSeq srcLen
  split
  · exact length_fbufSeq s
  · exact length_keySeq s

/-- The hashed sequence is no longer than the Key. -/
theorem srcLen_le {s : State} (h : Filtered s) : srcLen s ≤ s.keylen := by
  unfold srcLen
  split
  · next hr =>
    rw [BitVec.le_def, ← length_fbufSeq, ← length_keySeq, (h hr).2]
    exact length_filterWs_le _
  · exact BitVec.le_refl _

/-- A field that PhaseInv does not read does not matter to it. -/
theorem PhaseInv.congr {s t : State} (h : PhaseInv s) (hph : t.ph = s.ph) (hrm : t.rm = s.rm)
    (hflen : t.flen = s.flen) (hj : t.j = s.j) (hkl : t.keylen = s.keylen) (hfb : t.fbuf = s.fbuf)
    (hk : t.key = s.key) (hi : t.i = s.i) (hr : t.rem = s.rem) (hl : t.len = s.len) : PhaseInv t := by
  have hks : keySeq t = keySeq s := by simp [keySeq, hkl, hk]
  have hfs : fbufSeq t = fbufSeq s := by simp [fbufSeq, hfb, hflen]
  have hF : Filtered s → Filtered t := fun h => by simpa [Filtered, hrm, hfb, hflen, hks, hfs] using h
  have hR : Reading s → Reading t := fun h =>
    ⟨by rw [hi]; exact h.aligned, by rw [hi, hr, hl]; exact h.position,
      by rw [hl, h.length]; simp [srcLen, hrm, hflen, hkl], by rw [hl, hkl]; exact h.withinKey, hF h.filtered⟩
  unfold PhaseInv at *
  rw [hph]
  split at h <;> simp_all

/-! ### Reads of the sequence -/

/-- SRC is filled, its bytes are the sequence hashed, and its length is that sequence's. -/
theorem src_filled {s : State} (hI : MachineInv s) (hf : Filtered s) :
    Memory.filled (cells (srcSpace s) s) (liveLength (srcSpace s) s)
      ∧ Memory.bytes (cells (srcSpace s) s) (liveLength (srcSpace s) s) = srcSeq s
      ∧ liveLength (srcSpace s) s = (srcLen s).toNat := by
  unfold srcSpace srcSeq srcLen
  by_cases hr : s.rm = true
  · simp only [hr, if_true]
    exact ⟨(hf hr).1, rfl, rfl⟩
  · simp only [hr]
    exact ⟨hI.keyFilled, rfl, rfl⟩

/-- Inside the sequence a read gives its element. -/
theorem readByte_src {s : State} {a : Nat} (hI : MachineInv s) (hf : Filtered s) (ha : a < (srcLen s).toNat) :
    ∃ b, readByte (srcSpace s) a s = some b ∧ (srcSeq s)[a]? = some b := by
  obtain ⟨h1, h2, h3⟩ := src_filled hI hf
  rw [readByte_of_filled h1 (by omega), h2, List.getElem?_eq_getElem (by rw [length_srcSeq]; exact ha)]
  exact ⟨_, rfl, rfl⟩

theorem drop_eq_cons_of_getElem? {l : List Byte} {n : Nat} {b : Byte} (h : l[n]? = some b) :
    l.drop n = b :: l.drop (n + 1) := by
  obtain ⟨hn, rfl⟩ := List.getElem?_eq_some_iff.mp h
  exact List.drop_eq_getElem_cons hn

/-- What body.chunk reads: the next four bytes of the sequence, as one word. -/
theorem body_bytes {s : State} (hI : MachineInv s) (hp : s.ph = .body) (hr : 4 ≤ s.rem) :
    ∃ b0 b1 b2 b3, srcChunk s = some (wordOfBytes b0 b1 b2 b3)
      ∧ (srcSeq s).drop s.i.toNat = b0 :: b1 :: b2 :: b3 :: (srcSeq s).drop (s.i.toNat + 4) := by
  have hph := hI.phase
  simp only [PhaseInv, hp] at hph
  have hpos := hph.position
  have hr4 : 4 ≤ s.rem.toNat := hr
  rw [hph.length] at hpos
  obtain ⟨b0, h0, g0⟩ := readByte_src (a := s.i.toNat) hI hph.filtered (by omega)
  obtain ⟨b1, h1, g1⟩ := readByte_src (a := s.i.toNat + 1) hI hph.filtered (by omega)
  obtain ⟨b2, h2, g2⟩ := readByte_src (a := s.i.toNat + 2) hI hph.filtered (by omega)
  obtain ⟨b3, h3, g3⟩ := readByte_src (a := s.i.toNat + 3) hI hph.filtered (by omega)
  refine ⟨b0, b1, b2, b3, readWord_of_bytes h0 h1 h2 h3, ?_⟩
  rw [drop_eq_cons_of_getElem? g0, drop_eq_cons_of_getElem? g1, drop_eq_cons_of_getElem? g2,
    drop_eq_cons_of_getElem? g3]

theorem rem_cases {r : Word} (h : r ≤ 3) : r = 0 ∨ r = 1 ∨ r = 2 ∨ r = 3 := by
  have h3 : r.toNat ≤ 3 := h
  have : r.toNat = 0 ∨ r.toNat = 1 ∨ r.toNat = 2 ∨ r.toNat = 3 := by omega
  rcases this with h | h | h | h
  · exact .inl (BitVec.eq_of_toNat_eq h)
  · exact .inr (.inl (BitVec.eq_of_toNat_eq h))
  · exact .inr (.inr (.inl (BitVec.eq_of_toNat_eq h)))
  · exact .inr (.inr (.inr (BitVec.eq_of_toNat_eq h)))

/-- What tail computes: R125's Tail on the bytes of the sequence not yet read. -/
theorem tail_bytes {s : State} (hI : MachineInv s) (hp : s.ph = .tail) :
    ∃ x, tailXors s = some x
      ∧ (if 1 ≤ s.rem then mul32 x mixMultiplier else x) = tailMix s.h ((srcSeq s).drop s.i.toNat) := by
  have hph := hI.phase
  simp only [PhaseInv, hp] at hph
  obtain ⟨hR, h3⟩ := hph
  have hpos := hR.position
  rw [hR.length] at hpos
  have hnil : (srcSeq s).drop (s.i.toNat + s.rem.toNat) = [] :=
    List.drop_eq_nil_of_le (by rw [length_srcSeq]; omega)
  rcases rem_cases h3 with h | h | h | h <;> simp only [h] at hnil hpos <;> simp at hnil hpos
  · refine ⟨s.h, by simp [tailXors, xorTailByte, h], ?_⟩
    rw [List.drop_eq_nil_of_le hnil]
    simp [h, tailMix]
  · obtain ⟨b0, h0, g0⟩ := readByte_src (a := s.i.toNat) hI hR.filtered (by omega)
    refine ⟨s.h ^^^ zext32 b0, by simp [tailXors, xorTailByte, h, h0, shl], ?_⟩
    rw [drop_eq_cons_of_getElem? g0, List.drop_eq_nil_of_le hnil]
    simp [h, tailMix]
  · obtain ⟨b0, h0, g0⟩ := readByte_src (a := s.i.toNat) hI hR.filtered (by omega)
    obtain ⟨b1, h1, g1⟩ := readByte_src (a := s.i.toNat + 1) hI hR.filtered (by omega)
    refine ⟨s.h ^^^ shl (zext32 b1) 8 ^^^ zext32 b0, by simp [tailXors, xorTailByte, h, h0, h1, shl], ?_⟩
    rw [drop_eq_cons_of_getElem? g0, drop_eq_cons_of_getElem? g1, List.drop_eq_nil_of_le hnil]
    simp [h, tailMix]
  · obtain ⟨b0, h0, g0⟩ := readByte_src (a := s.i.toNat) hI hR.filtered (by omega)
    obtain ⟨b1, h1, g1⟩ := readByte_src (a := s.i.toNat + 1) hI hR.filtered (by omega)
    obtain ⟨b2, h2, g2⟩ := readByte_src (a := s.i.toNat + 2) hI hR.filtered (by omega)
    refine ⟨s.h ^^^ shl (zext32 b2) 16 ^^^ shl (zext32 b1) 8 ^^^ zext32 b0,
      by simp [tailXors, xorTailByte, h, h0, h1, h2, shl], ?_⟩
    rw [drop_eq_cons_of_getElem? g0, drop_eq_cons_of_getElem? g1, drop_eq_cons_of_getElem? g2,
      List.drop_eq_nil_of_le hnil]
    simp [h, tailMix]

end Sys2Proof.Machine
end

