-- ==== Sys2Proof/Laws/Script.lean ====
section
/-! SUPPORT. Turns in a row, and the playing of a script, move by move. -/

namespace Sys2Proof.Machine

/-! ### Turns in a row -/

theorem takeTurns_cons {u : Turn} {us : List Turn} {s t : State} (h : takeTurn u s = .next t) :
    takeTurns (u :: us) s = takeTurns us t := by
  rw [takeTurns, h]

theorem takeTurns_append {a b : List Turn} {s t : State} (h : takeTurns a s = .next t) :
    takeTurns (a ++ b) s = takeTurns b t := by
  induction a generalizing s with
  | nil => cases h; rfl
  | cons u a ih =>
    cases hu : takeTurn u s with
    | next v =>
      rw [takeTurns_cons hu] at h
      rw [List.cons_append, takeTurns_cons hu, ih h]
    | fault f => simp [takeTurns, hu] at h
    | refused r => simp [takeTurns, hu] at h

/-! ### A play -/

theorem play_cons {m : Mover} {ms : List Mover} {p q : Play} (h : playMove m p = .next q) :
    play (m :: ms) p = play ms q := by
  rw [play, h]

theorem play_append {a b : List Mover} {p q : Play} (h : play a p = .next q) :
    play (a ++ b) p = play b q := by
  induction a generalizing p with
  | nil => cases h; rfl
  | cons m a ih =>
    cases hm : playMove m p with
    | next r =>
      rw [play_cons hm] at h
      rw [List.cons_append, play_cons hm, ih h]
    | fault f => simp [play, hm] at h
    | refused r => simp [play, hm] at h

/-- A host with nothing left presents nothing. -/
theorem playMove_host_done (s : State) (rs : List Word) :
    playMove .host ⟨[], s, rs⟩ = .next ⟨[], s, rs⟩ := rfl

/-- The host's line is taken and done; a read's reply is noted. -/
theorem playMove_host_line {l : ScriptLine} {rest : List ScriptItem} {s t : State} (rs : List Word)
    (h : takeTurn (.host (lineTw l)) { s with reply := none } = .next t) :
    playMove .host ⟨.line l :: rest, s, rs⟩ = .next ⟨rest, t, rs ++ t.reply.toList⟩ := by
  simp [playMove, moverTurn, itemTw, h, scriptRest]

/-- `wait` reads STATUS and is done only where the block is idle; the block is unchanged but for the reply. -/
theorem playMove_host_wait (rest : List ScriptItem) (s : State) (rs : List Word) :
    playMove .host ⟨.wait :: rest, s, rs⟩ =
      .next
        { script := if busy s then .wait :: rest else rest
          state := { s with reply := some (statusWord s) }
          replies := rs ++ [statusWord s] } := by
  have ht : takeTurn (.host (lineTw .rdStatus)) { s with reply := none }
      = .next { s with reply := some (statusWord s) } := by
    show exec (decodeTw (makeTw false 1 0)) _ = _
    rw [decodeTw_makeTw]
    rfl
  have hb : (statusWord s).getLsbD 0 = busy s := by
    have := BitVec.getLsbD_append (x := (0 : BitVec 24) ++ errNumber s.errCode ++ (0 : BitVec 1)
      ++ BitVec.ofBool s.err ++ BitVec.ofBool s.done) (y := BitVec.ofBool (busy s)) (i := 0)
    exact this.trans (by simp)
  have hr : scriptRest (.wait :: rest) (some (statusWord s)) = if busy s then .wait :: rest else rest := by
    rw [scriptRest, Option.any_some, hb]
    cases busy s <;> rfl
  simp [playMove, moverTurn, itemTw, ht, hr]

/-- The engine's move. -/
theorem playMove_engine {script : List ScriptItem} {s t : State} (rs : List Word)
    (h : engineTurn { s with reply := none } = .next t) :
    playMove .engine ⟨script, s, rs⟩ = .next ⟨script, t, rs ++ t.reply.toList⟩ := by
  simp [playMove, moverTurn, takeTurn, h]

end Sys2Proof.Machine
end

