-- ==== Sys2Proof/Tests/Slice0.lean ====
section
/-! SUPPORT. The model's own tests: refused ill-formed terms, words written out from the spec's tables, single steps from
spec/95_test_vectors.md, and a witness for the hypotheses of every statement that has some. -/

namespace Sys2Proof.Tests

open Sys2Proof Sys2Proof.Machine

/-! ### Helpers -/

/-- A property of the next state; false where there is none. -/
def after (o : Host.Outcome State Fault Refusal) (p : State → Bool) : Bool :=
  match o with
  | .next t => p t
  | .fault _ => false
  | .refused _ => false

/-- The fault, if the outcome is one. -/
def faultOf (o : Host.Outcome State Fault Refusal) : Option Fault :=
  match o with
  | .next _ => none
  | .fault f => some f
  | .refused _ => none

/-- The cells of a sequence from index 0. -/
def cellsOf (bs : List Byte) : Memory := bs.zipIdx.map fun p => (p.2, p.1)

/-- The state after reset and the pushes of `bs`. -/
def keyed (bs : List Byte) : State :=
  { State.reset with key := cellsOf bs, keylen := BitVec.ofNat 32 bs.length }

/-- An error of cause `c` standing in IDLE. -/
def idleErr (c : ErrCode) : State := withError c State.reset

/-- "a\tb" under `start.rw` with `j` bytes examined and `kept` kept. -/
def inFilt (j : Word) (kept : List Byte) : State :=
  { keyed [97, 9, 98] with
    ph := .filt, rm := true, j := j, fbuf := cellsOf kept, flen := BitVec.ofNat 32 kept.length }

/-- A run of `bs` without the filter, in BODY or later, `i` bytes read. -/
def inRun (ph : Phase) (bs : List Byte) (i : Word) (h : Word) : State :=
  let n : Word := BitVec.ofNat 32 bs.length
  { keyed bs with ph := ph, len := n, i := i, rem := n - i, h := h }

/-- One transaction at the head of the agenda. -/
def given (tw : Tw) (s : State) : State := { s with agenda := [.host tw] }

/-- The bytes 0x00 to 0x63 in order (row L100). -/
def hundred : List Byte := (List.range 100).map fun n => BitVec.ofNat 8 n

/-! ### Ill-formed terms are refused, one for each check of WellFormed -/

theorem test_wf_refuses_legal_as_illegal : (Instr.cmdIllegal 0x101).wf = false := by decide
theorem test_wf_refuses_byte_as_bad : (Instr.pushBad 0xFF).wf = false := by decide
theorem test_wf_refuses_low_register_write : (Instr.wrBadR8to15 7 0).wf = false := by decide
theorem test_wf_refuses_low_register_read : (Instr.rdZeroR8to15 7 0).wf = false := by decide

/-! ### Decoding: one word for each row, written out from the encoding column of spec/opcode_table.json -/

theorem test_decode_nop : decodeTw 0b1000000000000000000000000000000000000 = .nop := by decide
theorem test_decode_start : decodeTw 0b1000000000000000000000000000000000001 = .start := by decide
theorem test_decode_startRw : decodeTw 0b1000000000000000000000000000100000001 = .startRw := by decide
theorem test_decode_clear : decodeTw 0b1000000000000000000000000000000000010 = .clear := by decide
theorem test_decode_clrerr : decodeTw 0b1000000000000000000000000000000000011 = .clrerr := by decide
theorem test_decode_seed :
    decodeTw 0b1001010000000000000000000000000000001 = .seed 0x80000001 := by decide
theorem test_decode_push : decodeTw 0b1001100000000000000000000000010000001 = .push 0x81 := by decide
theorem test_decode_rdStatus : decodeTw 0b0000100000000000000000000000000000000 = .rdStatus 0 := by decide
theorem test_decode_rdSeed : decodeTw 0b0001000000000000000000000000000000000 = .rdSeed 0 := by decide
theorem test_decode_rdKeylen : decodeTw 0b0010000000000000000000000000000000000 = .rdKeylen 0 := by decide
theorem test_decode_rdHash :
    decodeTw 0b0010111011110101011011011111011101111 = .rdHash 0xDEADBEEF := by decide
theorem test_decode_rdKeycap : decodeTw 0b0011000000000000000000000000000000000 = .rdKeycap 0 := by decide
theorem test_decode_cmdIllegal :
    decodeTw 0b1000000000000000000000000000100000010 = .cmdIllegal 0x102 := by decide
theorem test_decode_pushBad :
    decodeTw 0b1001100000000000000000000000100000000 = .pushBad 0x100 := by decide
theorem test_decode_wrBadR1 : decodeTw 0b1000100000000000000000000000000000000 = .wrBadR1 0 := by decide
theorem test_decode_wrBadR4 : decodeTw 0b1010000000000000000000000000000000000 = .wrBadR4 0 := by decide
theorem test_decode_wrBadR5 : decodeTw 0b1010100000000000000000000000000000000 = .wrBadR5 0 := by decide
theorem test_decode_wrBadR6 : decodeTw 0b1011000000000000000000000000000000000 = .wrBadR6 0 := by decide
theorem test_decode_wrBadR7 : decodeTw 0b1011100000000000000000000000000000000 = .wrBadR7 0 := by decide
theorem test_decode_wrBadR8to15 :
    decodeTw 0b1111100000000000000000000000000000000 = .wrBadR8to15 15 0 := by decide
theorem test_decode_rdZeroR0 : decodeTw 0b0000000000000000000000000000000000000 = .rdZeroR0 0 := by decide
theorem test_decode_rdZeroR3 : decodeTw 0b0001100000000000000000000000000000000 = .rdZeroR3 0 := by decide
theorem test_decode_rdZeroR7 : decodeTw 0b0011100000000000000000000000000000000 = .rdZeroR7 0 := by decide
theorem test_decode_rdZeroR8to15 :
    decodeTw 0b0100000000000000000000000000000000000 = .rdZeroR8to15 8 0 := by decide
theorem test_decode_idle : decodePhase 0b000 false = some .idle := by decide
theorem test_decode_filtByte : decodePhase 0b001 true = some .filtByte := by decide
theorem test_decode_filtExit : decodePhase 0b001 false = some .filtExit := by decide
theorem test_decode_init : decodePhase 0b010 false = some .init := by decide
theorem test_decode_bodyChunk : decodePhase 0b011 true = some .bodyChunk := by decide
theorem test_decode_bodyExit : decodePhase 0b011 false = some .bodyExit := by decide
theorem test_decode_tail : decodePhase 0b100 false = some .tail := by decide
theorem test_decode_final : decodePhase 0b101 false = some .final := by decide
theorem test_table_word_tw : decodeTableWord 40 0x1300000020 = some (.push 0x20) := by decide
theorem test_table_word_ph : decodeTableWord 8 0x3 = some .bodyChunk := by decide
theorem test_table_word_too_long : decodeTableWord 40 0x2000000000 = none := by decide
theorem test_table_word_unused_phase : decodeTableWord 8 0x6 = none := by decide

/-! ### The datapath: rows of spec/95_test_vectors.md sections 2, 3 and 4.1 -/

theorem test_mul32_M7 : mul32 0xFFFFFFFF 0xFFFFFFFF = 0x00000001 := by decide
theorem test_mul32_M14 : mul32 0x6C6C6568 0x5BD1E995 = 0x854AAD88 := by decide
theorem test_mul32Split_M16 : mul32Split 0x12345678 0x9ABCDEF0 = 0x242D2080 := by decide
theorem test_xorShr_B5 : xorShr 0xDAD30B2F 13 = 0xDAD5DDB7 := by decide
theorem test_wordOfBytes_B7 : wordOfBytes 0x68 0x65 0x6C 0x6C = 0x6C6C6568 := by decide
theorem test_filterWs_F7 :
    filterWs [8, 9, 10, 11, 12, 13, 14, 31, 32, 33] = [8, 11, 12, 14, 31, 33] := by decide
theorem test_hash_E1 : hashOf [] 1 false = 0x5BD15E36 := by decide
theorem test_hash_H1 : hashOf [0x68, 0x65, 0x6C, 0x6C, 0x6F] 0 false = 0xE56129CB := by decide
theorem test_hash_H5 :
    hashOf [0x68, 0x65, 0x6C, 0x6C, 0x6F, 0x20, 0x77, 0x6F, 0x72, 0x6C, 0x64] 42 false = 0x93BB35B7 := by
  decide
theorem test_hash_W3 : hashOf [0x61, 0x09, 0x62, 0x0A, 0x63] 0 true = 0x13577C9B := by decide
theorem test_hash_Z6 : hashOf [0x80] 0 false = 0x9B891BB0 := by decide
theorem test_hash_L100 : hashOf hundred 0 false = 0x560056F8 := by decide

/-! ### Host transactions: rows of spec/95_test_vectors.md section 5.2, each one step -/

theorem test_nop_T1 : after (step (given 0x1000000000 State.reset)) (· == State.reset) = true := by decide
theorem test_nop_T18 :
    after (step (given 0x1000000000 (inRun .tail [97] 0 1))) (fun t => statusWord t == 0x35) = true := by
  decide
theorem test_start_T2 :
    after (step (given 0x1000000001 (keyed [97, 98, 99])))
      (fun t => t.ph == .init && !t.rm && statusWord t == 0x01) = true := by decide
theorem test_start_T4 :
    after (step (given 0x1000000001 { idleErr .badByte with done := true }))
      (fun t => statusWord t == 0x16) = true := by decide
theorem test_startRw_T3 :
    after (step (given 0x1000000101 (keyed [97, 98, 99])))
      (fun t => t.ph == .filt && t.rm && statusWord t == 0x01) = true := by decide
theorem test_startRw_busy_T17 :
    after (step (given 0x1000000101 (inFilt 0 []))) (fun t => t.ph == .filt && statusWord t == 0x35) = true := by
  decide
theorem test_clear_T6 :
    after (step (given 0x1000000002 (withError .keyOverflow (keyed [97, 98]))))
      (fun t => t.keylen == 0 && statusWord t == 0x24) = true := by decide
theorem test_clrerr_T7 :
    after (step (given 0x1000000003 (idleErr .illegalCmd))) (fun t => statusWord t == 0) = true := by decide
theorem test_seed_T8 :
    after (step (given 0x12FFFFFFFF State.reset)) (fun t => t.seed == 0xFFFFFFFF) = true := by decide
theorem test_push_T9 :
    after (step (given 0x1300000020 (keyed [97, 98])))
      (fun t => keySeq t == [97, 98, 0x20] && t.keylen == 3) = true := by decide
theorem test_push_T14 :
    after (step (given 0x1300000000 { State.reset with config := { keyCap := 0 } }))
      (fun t => statusWord t == 0x24 && t.keylen == 0) = true := by decide
theorem test_pushBad_T11 :
    after (step (given 0x1380000041 (keyed [97, 98])))
      (fun t => statusWord t == 0x14 && t.keylen == 2) = true := by decide
theorem test_pushBad_T16 :
    after (step (given 0x1300000100 (inRun .body [97, 98, 99, 100] 0 4)))
      (fun t => statusWord t == 0x35) = true := by decide
theorem test_cmdIllegal_T24 :
    after (step (given 0x1000000102 (keyed [97]))) (fun t => statusWord t == 0x44 && t.keylen == 1) = true := by
  decide
theorem test_cmdIllegal_T28 :
    after (step (given 0x1000000004 (idleErr .badByte))) (fun t => statusWord t == 0x14) = true := by decide
theorem test_wrBadR1_T21 :
    after (step (given 0x11FFFFFFFF State.reset)) (fun t => statusWord t == 0x54) = true := by decide
theorem test_wrBadR4 :
    after (step (given 0x1400000007 (keyed [97]))) (fun t => statusWord t == 0x54 && t.keylen == 1) = true := by
  decide
theorem test_wrBadR5_T20 :
    after (step (given 0x1500000000 { keyed [97] with ph := .init }))
      (fun t => statusWord t == 0x55) = true := by decide
theorem test_wrBadR6 :
    after (step (given 0x1600000002 State.reset))
      (fun t => statusWord t == 0x54 && t.config.keyCap == 4096) = true := by decide
theorem test_wrBadR7 :
    after (step (given 0x1700000000 State.reset)) (fun t => statusWord t == 0x54) = true := by decide
theorem test_wrBadR8to15_T22 :
    after (step (given 0x1F00000000 State.reset)) (fun t => statusWord t == 0x54) = true := by decide
theorem test_rdStatus_P6 :
    after (step (given 0x0100000000 (withError .busyWrite (inRun .body [97, 98, 99, 100] 0 4))))
      (fun t => t.reply == some 0x35) = true := by decide
theorem test_rdSeed_T30 :
    after (step (given 0x0200000000 { State.reset with seed := 0x2A }))
      (fun t => t.reply == some 0x2A) = true := by decide
theorem test_rdKeylen_T31 :
    after (step (given 0x0400000000 { State.reset with keylen := 11 }))
      (fun t => t.reply == some 0x0B) = true := by decide
theorem test_rdHash_T35 :
    after (step (given 0x05DEADBEEF { State.reset with hash := 0xE56129CB, done := true }))
      (fun t => t.reply == some 0xE56129CB && t.done) = true := by decide
theorem test_rdKeycap_T33 :
    after (step (given 0x0600000000 State.reset)) (fun t => t.reply == some 0x1000) = true := by decide
theorem test_rdZeroR0_T34 :
    after (step (given 0x0000000001 State.reset)) (fun t => t.reply == some 0 && t.ph == .idle) = true := by
  decide
theorem test_rdZeroR3_T34 :
    after (step (given 0x0300000041 State.reset)) (fun t => t.reply == some 0 && t.keylen == 0) = true := by
  decide
theorem test_rdZeroR7_T34 :
    after (step (given 0x0700000000 State.reset)) (fun t => t.reply == some 0 && !t.err) = true := by decide
theorem test_rdZeroR8to15_P7 :
    after (step (given 0x0900000000 State.reset)) (fun t => t.reply == some 0 && !t.err) = true := by decide

/-! ### Engine steps: rows of the traces of spec/95_test_vectors.md sections 3, 4.2 and 7 -/

theorem test_idle : after (step (keyed [97])) (· == keyed [97]) = true := by decide
theorem test_filtByte_drops :
    after (step (inFilt 1 [97])) (fun t => t.j == 2 && fbufSeq t == [97] && t.ph == .filt) = true := by decide
theorem test_filtByte_keeps :
    after (step (inFilt 2 [97])) (fun t => t.j == 3 && fbufSeq t == [97, 98]) = true := by decide
theorem test_filtExit :
    after (step (inFilt 3 [97, 98])) (fun t => t.ph == .init && t.flen == 2) = true := by decide
theorem test_init_P4 :
    after (step { keyed [0x68, 0x65, 0x6C, 0x6C, 0x6F, 0x20, 0x77, 0x6F, 0x72, 0x6C, 0x64] with
        ph := .init, seed := 0x2A })
      (fun t => t.ph == .body && t.len == 11 && t.h == 0x21 && t.i == 0 && t.rem == 11) = true := by decide
theorem test_init_filtered_P4 :
    after (step { State.reset with ph := .init, rm := true, seed := 0x2A, keylen := 11, flen := 10 })
      (fun t => t.len == 10 && t.h == 0x20 && t.rem == 10) = true := by decide
theorem test_bodyChunk_hello :
    after (step (inRun .body [0x68, 0x65, 0x6C, 0x6C, 0x6F] 0 5))
      (fun t => t.ph == .body && t.h == 0xB98D0278 && t.i == 4 && t.rem == 1) = true := by decide
theorem test_bodyChunk_ones :
    after (step (inRun .body [0xFF, 0xFF, 0xFF, 0xFF] 0 4))
      (fun t => t.h == 0xDAD30B2F && t.i == 4 && t.rem == 0) = true := by decide
theorem test_bodyExit :
    after (step (inRun .body [0x61, 0x62, 0x63] 0 3)) (fun t => t.ph == .tail && t.h == 3) = true := by decide
theorem test_tail_abc :
    after (step (inRun .tail [0x61, 0x62, 0x63] 0 3)) (fun t => t.ph == .final && t.h == 0xD665750A) = true := by
  decide
theorem test_tail_nothing :
    after (step (inRun .tail [0x61, 0x62, 0x63, 0x64] 4 0x83B21F23)) (fun t => t.h == 0x83B21F23) = true := by
  decide
theorem test_final_hello :
    after (step (inRun .final [0x68, 0x65, 0x6C, 0x6C, 0x6F] 4 0x37C02663))
      (fun t => t.hash == 0xE56129CB && t.h == 0xE56129CB && statusWord t == 0x02) = true := by decide

/-! ### Reset (section 5.3), faults, and the placing of words -/

theorem test_reset_X1 :
    after (step { withError .busyWrite (inRun .body [97, 98, 99, 100] 0 4) with
        seed := 0x2A, hash := 0x93BB35B7, agenda := [.reset] })
      (fun t => t == State.reset) = true := by decide
theorem test_reset_wins_X2 :
    after (clockEdge ⟨true, true, true, 3, 0x41⟩ true (inRun .body [97, 98, 99, 100] 0 4))
      (fun t => t == State.reset) = true := by decide
theorem test_read_beside_final :
    (portOut ⟨false, true, false, 1, 0⟩ (inRun .final [97] 0 1)).rspRdata = 0x01 := by decide
theorem test_no_value_faults :
    faultOf (step { State.reset with ph := .filt, keylen := 1 }) = some .keyNoValue := by decide
theorem test_disabled_rule_faults : faultOf (exec .final State.reset) = some .ruleNotEnabled := by decide
theorem test_placed_push :
    after (step (State.reset.withFetchWord 40 0x1300000041)) (fun t => keySeq t == [0x41]) = true := by decide
theorem test_placed_rule :
    after (step (State.reset.withFetchWord 8 0x3)) (fun t => t.i == 4 && t.rem == 0) = true := by decide
theorem test_call_head :
    after (takeTurns (hostTurns (callHead (some [0x68, 0x69]) (some 7) true)) (keyed [1]))
      (fun t => keySeq t == [0x68, 0x69] && t.seed == 7 && t.ph == .filt) = true := by decide

/-! ### Scripts (programs P5 and section 4.1 of spec/95_test_vectors.md): `wait` looks at the reply -/

/-- What a caller gets from a played script, where it is done. -/
def outcomeOf (o : Host.Outcome Play Fault Refusal) : Option (Option Word) :=
  match o with
  | .next p => if p.script = [] then some (callResult p.replies) else none
  | .fault _ => none
  | .refused _ => none

/-- The head, one poll during the run, the run, and the rest: P5's second call, "hi" under the reset seed. -/
theorem test_script_hash_P5 :
    outcomeOf
        (play (List.replicate 5 .host ++ List.replicate 4 .engine ++ List.replicate 3 .host)
          (playFrom (hashScript (some (quoted ['h', 'i'])) none) State.reset))
      = some (some 0x1C383CF4) := by decide
/-- With no engine step after START the poll is repeated: the script is not done, however often the host moves. -/
theorem test_script_waits :
    outcomeOf
        (play (List.replicate 9 .host) (playFrom (hashScript (some (quoted ['h', 'i'])) none) State.reset))
      = none := by decide
/-- P5's first call: the refused element leaves no value. -/
theorem test_script_bad_byte_P5 :
    outcomeOf (play (List.replicate 6 .host) (playFrom (callScript (some [0x68, 0x100]) none) State.reset))
      = some none := by decide
/-- Row E2 with the key and the seed given, `start.rw`. -/
theorem test_script_call_E2 :
    outcomeOf
        (play (List.replicate 3 .host ++ List.replicate 5 .engine ++ List.replicate 2 .host)
          (playFrom (callScript (some []) (some 42) true) (keyed [1])))
      = some (some 0x10707292) := by decide

/-! ### Witnesses: states and operands that meet the hypotheses of each statement, clause by clause, at the boundary
values of their ranges. The name says which statement. -/

/-- A state with capacity `cap`. -/
def capped (cap : Word) (s : State) : State := { s with config := { keyCap := cap } }

theorem witness_DecodeFollowsTheProcedure_registers : (8 : BitVec 4) ≤ 8 ∧ (8 : BitVec 4) ≤ 15 := by decide
theorem witness_DecodeFollowsTheProcedure_words :
    (0x100 : Word).extractLsb' 8 24 ≠ 0 ∧ (0x80000041 : Word).extractLsb' 8 24 ≠ 0
      ∧ (0x4 : Word) ∉ [(0x0 : Word), 0x1, 0x101, 0x2, 0x3]
      ∧ (0xFFFFFFFF : Word) ∉ [(0x0 : Word), 0x1, 0x101, 0x2, 0x3] := by decide
theorem witness_DecodeOfEncodeIsTheInstruction :
    (Instr.cmdIllegal 0x4).wf = true ∧ (Instr.pushBad 0x100).wf = true ∧ (Instr.wrBadR8to15 8 0).wf = true
      ∧ (Instr.rdZeroR8to15 15 1).wf = true ∧ Instr.filtExit.wf = true := by decide
theorem witness_EncodeOfDecodeIsTheWord :
    (Instr.push 1).wf = true ∧ isTransaction (.push 1) = true ∧ encode (.push 1) = encode (.push 1) := by decide
theorem witness_StepRunsTheDecodedTransaction :
    (given 0x1300000041 State.reset).agenda = [.host 0x1300000041]
      ∧ decodeTw 0x1300000041 = .push 0x41 := by decide
theorem witness_StepRunsTheEnabledEngineRule_agenda :
    { inFilt 3 [97, 98] with agenda := [.engine] }.agenda = .engine :: [] ∧ (inFilt 3 [97, 98]).agenda = [] := by
  decide
theorem witness_StepRunsTheEnabledEngineRule_filt :
    (inFilt 2 [97]).ph = .filt ∧ (inFilt 2 [97]).j < (inFilt 2 [97]).keylen
      ∧ (inFilt 3 [97, 98]).ph = .filt ∧ (inFilt 3 [97, 98]).j = (inFilt 3 [97, 98]).keylen := by decide
theorem witness_StepRunsTheEnabledEngineRule_body :
    (inRun .body [1, 2, 3, 4] 0 0).ph = .body ∧ 4 ≤ (inRun .body [1, 2, 3, 4] 0 0).rem
      ∧ (inRun .body [1, 2, 3] 0 0).ph = .body ∧ (inRun .body [1, 2, 3] 0 0).rem < 4 := by decide
theorem witness_StepRunsTheEnabledEngineRule_others :
    State.reset.ph = .idle ∧ (inRun .init [] 0 0).ph = .init ∧ (inRun .tail [] 0 0).ph = .tail
      ∧ (inRun .final [] 0 0).ph = .final := by decide
theorem witness_ResetOverwritesEveryState :
    { inRun .body [1, 2, 3, 4] 0 0 with agenda := [.reset, .engine] }.agenda = .reset :: [.engine] := by decide
theorem witness_PortsShowTheTakenTransaction :
    (PortIn.mk true true true 3 0x41).rst = true ∧ (PortIn.mk false false false 0 0).rst = false
      ∧ (PortIn.mk false false false 0 0).reqValid = false ∧ (PortIn.mk false true false 1 0).reqValid = true
      ∧ (PortIn.mk false true false 1 0).reqWe = false ∧ (PortIn.mk false true true 3 0x41).reqWe = true := by
  decide
theorem witness_PortsShowTheTakenTransaction_taken :
    takeTurn (.host (makeTw false 1 0)) { State.reset with reply := none }
        = .next { State.reset with reply := some 0 }
      ∧ takeTurn (.host (makeTw true 2 9)) { State.reset with reply := none }
        = .next { State.reset with seed := 9 } := ⟨rfl, rfl⟩

theorem witness_PortsShowTheTakenTransaction_moves :
    (PortIn.mk false true false 1 0).rst = false ∧ (PortIn.mk false true false 1 0).reqValid = true
      ∧ (PortIn.mk false true false 1 0).reqWe = false ∧ State.reset.ph = .idle
      ∧ (inRun .final [] 0 0).ph = .final ∧ (inRun .final [] 0 0).ph ≠ .idle
      ∧ takeTurn (.host (makeTw false 1 0)) { inRun .final [] 0 0 with reply := none }
          = .next { inRun .final [] 0 0 with reply := some 1 }
      ∧ takeTurn .engine { inRun .final [] 0 0 with reply := some 1 }
          = .next { State.reset with done := true, reply := some 1 } :=
  ⟨rfl, rfl, rfl, rfl, rfl, by decide, rfl, rfl⟩

/-- NopHasNoEffect, ClrerrClearsTheError, SeedWritesTheSeed, IllegalCommandIsRefused, BadByteIsRefused, and the
idle and busy clauses of ClearEmptiesTheKey. -/
theorem witness_idle_and_busy :
    State.reset.ph = .idle ∧ (idleErr .badByte).ph = .idle ∧ (inFilt 0 []).ph ≠ .idle
      ∧ (inRun .final [] 0 0).ph ≠ .idle := by decide
/-- StartBeginsARunWithoutTheFilter and StartRwBeginsARunWithTheFilter. -/
theorem witness_start :
    (State.reset.ph = .idle ∧ State.reset.err = false) ∧ ((idleErr .badByte).ph = .idle ∧ (idleErr .badByte).err = true)
      ∧ (inRun .tail [97] 0 1).ph ≠ .idle := by decide
theorem witness_IllegalCommandIsRefused :
    (0x102 : Word) ∉ [(0x0 : Word), 0x1, 0x101, 0x2, 0x3] ∧ (0x100 : Word) ∉ [(0x0 : Word), 0x1, 0x101, 0x2, 0x3]
      ∧ State.reset.ph = .idle := by decide
theorem witness_PushAppendsOneByte_accepted :
    State.reset.ph = .idle ∧ State.reset.keylen < State.reset.config.keyCap
      ∧ (capped 3 (keyed [1, 2])).ph = .idle
      ∧ (capped 3 (keyed [1, 2])).keylen < (capped 3 (keyed [1, 2])).config.keyCap := by decide
theorem witness_PushAppendsOneByte_refused :
    (capped 2 (keyed [1, 2])).ph = .idle
      ∧ (capped 2 (keyed [1, 2])).keylen = (capped 2 (keyed [1, 2])).config.keyCap
      ∧ (inFilt 0 []).ph ≠ .idle := by decide
theorem witness_PushOnAFullBufferOverflows :
    (capped 2 (keyed [1, 2])).ph = .idle
      ∧ (capped 2 (keyed [1, 2])).keylen = (capped 2 (keyed [1, 2])).config.keyCap
      ∧ (capped 0 State.reset).ph = .idle ∧ (capped 0 State.reset).config.keyCap = 0
      ∧ (capped 0 State.reset).keylen ≤ (capped 0 State.reset).config.keyCap := by decide
theorem witness_BadByteIsRefused :
    (0x100 : Word).extractLsb' 8 24 ≠ 0 ∧ (capped 2 (keyed [1, 2])).ph = .idle := by decide
theorem witness_BadAccessIsRefusedInEveryPhase :
    ((8 : BitVec 4) ≤ 8 ∧ (8 : BitVec 4) ≤ 15) ∧ ((1 : BitVec 4) = 1 ∨ (4 : BitVec 4) ≤ 1)
      ∧ ((4 : BitVec 4) = 1 ∨ (4 : BitVec 4) ≤ 4) ∧ ((15 : BitVec 4) = 1 ∨ (4 : BitVec 4) ≤ 15) := by decide
theorem witness_WritesDuringARunAreRefused :
    ((0 : BitVec 4) = 0 ∨ (0 : BitVec 4) = 2 ∨ (0 : BitVec 4) = 3)
      ∧ ((2 : BitVec 4) = 0 ∨ (2 : BitVec 4) = 2 ∨ (2 : BitVec 4) = 3)
      ∧ ((3 : BitVec 4) = 0 ∨ (3 : BitVec 4) = 2 ∨ (3 : BitVec 4) = 3)
      ∧ (inFilt 0 []).ph ≠ .idle := by decide
theorem witness_WriteDispatchMakesTheTestsInOrder :
    State.reset.keylen ≤ State.reset.config.keyCap
      ∧ (capped 2 (keyed [1, 2])).keylen ≤ (capped 2 (keyed [1, 2])).config.keyCap
      ∧ (inFilt 0 []).keylen ≤ (inFilt 0 []).config.keyCap := by decide
theorem witness_ReadsOfNothingReplyZero :
    ((8 : BitVec 4) ≤ 8 ∧ (8 : BitVec 4) ≤ 15)
      ∧ ((3 : BitVec 4) = 0 ∨ (3 : BitVec 4) = 3 ∨ (7 : BitVec 4) ≤ 3)
      ∧ ((7 : BitVec 4) = 0 ∨ (7 : BitVec 4) = 3 ∨ (7 : BitVec 4) ≤ 7) := by decide
theorem witness_IdleDoesNothing :
    State.reset.ph = .idle ∧ exec .start State.reset = .next { State.reset with ph := .init }
      ∧ { State.reset with ph := .init }.ph ≠ .idle := ⟨rfl, rfl, by decide⟩
theorem witness_FiltByteKeepsWhatIsNotWhitespace_drops :
    (inFilt 1 [97]).ph = .filt ∧ (inFilt 1 [97]).j < (inFilt 1 [97]).keylen
      ∧ Memory.read (inFilt 1 [97]).key (inFilt 1 [97]).j.toNat = some 9
      ∧ (9 : Byte) ∈ [(9 : Byte), 10, 13, 32] := by decide
theorem witness_FiltByteKeepsWhatIsNotWhitespace_keeps :
    (capped 3 (inFilt 2 [97])).ph = .filt ∧ (capped 3 (inFilt 2 [97])).j < (capped 3 (inFilt 2 [97])).keylen
      ∧ Memory.read (capped 3 (inFilt 2 [97])).key (capped 3 (inFilt 2 [97])).j.toNat = some 98
      ∧ (98 : Byte) ∉ [(9 : Byte), 10, 13, 32]
      ∧ (capped 3 (inFilt 2 [97])).flen < (capped 3 (inFilt 2 [97])).config.keyCap := by decide
theorem witness_FiltExitGoesToInit :
    (inFilt 3 [97, 98]).ph = .filt ∧ (inFilt 3 [97, 98]).j = (inFilt 3 [97, 98]).keylen := by decide
theorem witness_InitFoldsTheLengthIntoTheSeed :
    ((inRun .init [97] 0 0).ph = .init ∧ (inRun .init [97] 0 0).rm = false)
      ∧ ({ inFilt 3 [97, 98] with ph := .init }.ph = .init ∧ { inFilt 3 [97, 98] with ph := .init }.rm = true) := by
  decide
theorem witness_BodyChunkMixesOneWord :
    (inRun .body [1, 2, 3, 4] 0 0).ph = .body ∧ 4 ≤ (inRun .body [1, 2, 3, 4] 0 0).rem
      ∧ readByte (srcSpace (inRun .body [1, 2, 3, 4] 0 0)) 0 (inRun .body [1, 2, 3, 4] 0 0) = some 1
      ∧ readByte (srcSpace (inRun .body [1, 2, 3, 4] 0 0)) 1 (inRun .body [1, 2, 3, 4] 0 0) = some 2
      ∧ readByte (srcSpace (inRun .body [1, 2, 3, 4] 0 0)) 2 (inRun .body [1, 2, 3, 4] 0 0) = some 3
      ∧ readByte (srcSpace (inRun .body [1, 2, 3, 4] 0 0)) 3 (inRun .body [1, 2, 3, 4] 0 0) = some 4 := by decide
theorem witness_BodyExitGoesToTail :
    (inRun .body [1, 2, 3] 0 0).ph = .body ∧ (inRun .body [1, 2, 3] 0 0).rem < 4
      ∧ (inRun .body [] 0 0).rem < 4 := by decide
theorem witness_TailFoldsTheRemainingBytes_none_and_one :
    (inRun .tail [1, 2, 3, 4] 4 0).ph = .tail ∧ (inRun .tail [1, 2, 3, 4] 4 0).rem = 0
      ∧ (inRun .tail [1] 0 0).rem = 1
      ∧ readByte (srcSpace (inRun .tail [1] 0 0)) 0 (inRun .tail [1] 0 0) = some 1 := by decide
theorem witness_TailFoldsTheRemainingBytes_two :
    (inRun .tail [1, 2] 0 0).ph = .tail ∧ (inRun .tail [1, 2] 0 0).rem = 2
      ∧ readByte (srcSpace (inRun .tail [1, 2] 0 0)) 0 (inRun .tail [1, 2] 0 0) = some 1
      ∧ readByte (srcSpace (inRun .tail [1, 2] 0 0)) 1 (inRun .tail [1, 2] 0 0) = some 2 := by decide
theorem witness_TailFoldsTheRemainingBytes_three :
    (inRun .tail [1, 2, 3] 0 0).ph = .tail ∧ (inRun .tail [1, 2, 3] 0 0).rem = 3
      ∧ readByte (srcSpace (inRun .tail [1, 2, 3] 0 0)) 0 (inRun .tail [1, 2, 3] 0 0) = some 1
      ∧ readByte (srcSpace (inRun .tail [1, 2, 3] 0 0)) 1 (inRun .tail [1, 2, 3] 0 0) = some 2
      ∧ readByte (srcSpace (inRun .tail [1, 2, 3] 0 0)) 2 (inRun .tail [1, 2, 3] 0 0) = some 3 := by decide
theorem witness_FinalPublishesTheAvalanche : (inRun .final [] 0 0).ph = .final := by decide
theorem witness_RaisedErrorKeepsTheFirstCause :
    (idleErr .badByte).err = true ∧ State.reset.err = false := by decide
theorem witness_EngineLeavesInputsAndErrorsAlone :
    isTransaction .final = false
      ∧ exec .final (inRun .final [] 0 0) = .next { State.reset with done := true } := ⟨rfl, rfl⟩
theorem witness_HostLeavesARunAlone :
    isTransaction .nop = true ∧ (inFilt 0 []).ph ≠ .idle
      ∧ exec .nop (inFilt 0 []) = .next (withError .busyWrite (inFilt 0 [])) := ⟨rfl, by decide, rfl⟩
theorem witness_OnlyClrerrWithdrawsTheError :
    takeTurn (.host 0x1000000003) (idleErr .badByte) = .next State.reset
      ∧ takeTurn .reset (idleErr .badByte) = .next State.reset ∧ (idleErr .badByte).err = true
      ∧ State.reset.err = false := ⟨rfl, rfl, rfl, rfl⟩
theorem witness_ErrorsArePreciseAndComeFromWrites :
    exec (.pushBad 0x100) State.reset = .next (idleErr .badByte) ∧ State.reset.err = false
      ∧ (idleErr .badByte).err = true := ⟨rfl, rfl, rfl⟩
theorem witness_OnlyFinalWritesHash_set :
    exec .final (inRun .final [] 0 1) = .next { State.reset with h := 0x5BD15E36, hash := 0x5BD15E36, done := true }
      ∧ (0x5BD15E36 : Word) ≠ (inRun .final [] 0 1).hash ∧ (inRun .final [] 0 1).done = false := by
  exact ⟨rfl, by decide, rfl⟩
theorem witness_OnlyFinalWritesHash_cleared :
    exec .start { State.reset with done := true } = .next { State.reset with ph := .init }
      ∧ { State.reset with done := true }.done = true ∧ { State.reset with ph := .init }.done = false :=
  ⟨rfl, rfl, rfl⟩
theorem witness_OnlyFinalWritesHash_turns :
    (takeTurn .engine (inRun .final [] 0 1)
        = .next { State.reset with h := 0x5BD15E36, hash := 0x5BD15E36, done := true })
      ∧ (takeTurn .reset { State.reset with hash := 1, done := true } = .next State.reset)
      ∧ State.reset.hash ≠ { State.reset with hash := 1, done := true }.hash
      ∧ takeTurn (.host 0x1000000001) { State.reset with done := true } = .next { State.reset with ph := .init } :=
  ⟨rfl, rfl, by decide, rfl⟩
theorem witness_InputsChangeOnlyByTheirCommands_turns :
    takeTurn (.host 0x1300000041) State.reset = .next (keyed [65])
      ∧ takeTurn .reset { keyed [65] with seed := 7 } = .next State.reset
      ∧ State.reset.keylen ≠ (keyed [65]).keylen ∧ State.reset.key ≠ (keyed [65]).key
      ∧ State.reset.seed ≠ { keyed [65] with seed := 7 }.seed
      ∧ takeTurn (.host 0x1200000007) State.reset = .next { State.reset with seed := 7 } :=
  ⟨rfl, rfl, by decide, by decide, by decide, rfl⟩
theorem witness_InputsChangeOnlyByTheirCommands_push :
    exec (.push 65) State.reset = .next (keyed [65]) ∧ (keyed [65]).keylen ≠ State.reset.keylen
      ∧ (keyed [65]).key ≠ State.reset.key := ⟨rfl, by decide, by decide⟩
theorem witness_InputsChangeOnlyByTheirCommands_seed :
    exec (.seed 7) State.reset = .next { State.reset with seed := 7 }
      ∧ { State.reset with seed := 7 }.seed ≠ State.reset.seed := ⟨rfl, by decide⟩
theorem witness_PhasesFollowTheFixedGraph :
    exec .bodyExit (inRun .body [] 0 0) = .next (inRun .tail [] 0 0)
      ∧ (inRun .tail [] 0 0).ph ≠ (inRun .body [] 0 0).ph := ⟨rfl, by decide⟩
theorem witness_PhasesFollowTheFixedGraph_turns :
    takeTurn .reset (inRun .tail [] 0 0) = .next State.reset ∧ State.reset.ph ≠ (inRun .tail [] 0 0).ph
      ∧ takeTurn (.host 0x1000000001) State.reset = .next { State.reset with ph := .init }
      ∧ takeTurn (.host 0x1000000101) State.reset = .next { State.reset with rm := true, ph := .filt }
      ∧ takeTurn .engine (inRun .body [] 0 0) = .next (inRun .tail [] 0 0) :=
  ⟨rfl, by decide, rfl, rfl, rfl⟩
theorem witness_CapacityNeverChanges :
    step (given 0x1200000007 State.reset) = .next { State.reset with seed := 7 } := rfl
theorem witness_HostAndEngineCommute :
    isTransaction .nop = true ∧ (inRun .body [] 0 0).ph ≠ .idle
      ∧ exec .nop (inRun .body [] 0 0) = .next (withError .busyWrite (inRun .body [] 0 0))
      ∧ engineTurn (inRun .body [] 0 0) = .next (inRun .tail [] 0 0) := ⟨rfl, by decide, rfl, rfl⟩

/-! #### States that meet the invariant, one for each kind of phase -/

/-- The state after reset and a run that has published, as the premises of StartBeginsTheRunOfItsInputs,
RunCompletesWithTheHash, CallSequenceReturnsTheHash and the others over idle states ask. -/
theorem witness_inv_idle : MachineInv (keyed [1, 2]) ∧ (keyed [1, 2]).ph = .idle ∧ (keyed [1, 2]).err = false := by
  refine ⟨⟨by decide, by decide, ?_, ?_, by decide, ?_, by decide, by decide, trivial⟩, by decide, by decide⟩
  · unfold Memory.below; decide
  · unfold Memory.below; decide
  · unfold Memory.filled; decide

theorem witness_inv_filt : MachineInv (inFilt 2 [97]) ∧ (inFilt 2 [97]).ph ≠ .idle := by
  refine ⟨⟨by decide, by decide, ?_, ?_, by decide, ?_, by decide, by decide, ?_⟩, by decide⟩
  · unfold Memory.below; decide
  · unfold Memory.below; decide
  · unfold Memory.filled; decide
  · refine ⟨rfl, by decide, by decide, ?_, by decide⟩
    unfold Memory.filled; decide

/-- A run of five bytes after its one chunk. -/
def midRun : State := inRun .body [1, 2, 3, 4, 5] 4 (bodyStep 5 (wordOfBytes 1 2 3 4))

/-- FiltExitGoesToInit, with its last clause's premise. -/
theorem witness_FiltExitGoesToInit_invariant :
    MachineInv (inFilt 3 [97, 98]) ∧ (inFilt 3 [97, 98]).ph = .filt
      ∧ (inFilt 3 [97, 98]).j = (inFilt 3 [97, 98]).keylen := by
  refine ⟨⟨by decide, by decide, ?_, ?_, by decide, ?_, by decide, by decide, ?_⟩, by decide, by decide⟩
  · unfold Memory.below; decide
  · unfold Memory.below; decide
  · unfold Memory.filled; decide
  · refine ⟨rfl, by decide, by decide, ?_, by decide⟩
    unfold Memory.filled; decide

theorem witness_inv_body : MachineInv midRun ∧ midRun.ph ≠ .idle := by
  refine ⟨⟨by decide, by decide, ?_, ?_, by decide, ?_, by decide, by decide, ?_⟩, by decide⟩
  · unfold Memory.below; decide
  · unfold Memory.below; decide
  · unfold Memory.filled; decide
  · exact ⟨by decide, by decide, by decide, by decide, fun h => absurd h (by decide)⟩

theorem witness_inv_tail :
    MachineInv (inRun .tail [1, 2, 3] 0 3) ∧ (inRun .tail [1, 2, 3] 0 3).ph ≠ .idle := by
  refine ⟨⟨by decide, by decide, ?_, ?_, by decide, ?_, by decide, by decide, ?_⟩, by decide⟩
  · unfold Memory.below; decide
  · unfold Memory.below; decide
  · unfold Memory.filled; decide
  · exact ⟨⟨by decide, by decide, by decide, by decide, fun h => absurd h (by decide)⟩, by decide⟩

theorem witness_StepKeepsTheInvariant :
    MachineInv (inRun .tail [1, 2, 3] 0 3)
      ∧ ∃ t, step (inRun .tail [1, 2, 3] 0 3) = .next t := ⟨witness_inv_tail.1, _, rfl⟩
theorem witness_StepNeverStops : MachineInv midRun := witness_inv_body.1
theorem witness_ExactlyOneEngineRuleIsEnabled :
    MachineInv (inFilt 2 [97]) ∧ (inFilt 2 [97]).ph ≠ .idle := witness_inv_filt
theorem witness_StatusTakesFourteenValues :
    MachineInv (inFilt 2 [97]) ∧ StatusInv (inFilt 2 [97]) ∧ ∃ t, step (inFilt 2 [97]) = .next t :=
  ⟨witness_inv_filt.1, ⟨fun _ => .inl rfl, fun h => absurd h (by decide)⟩, _, rfl⟩
theorem witness_StartBeginsTheRunOfItsInputs :
    MachineInv (keyed [1, 2]) ∧ (keyed [1, 2]).ph = .idle ∧ (keyed [1, 2]).err = false := witness_inv_idle

/-- A run in progress that belongs to its START, and a transaction that begins no run. -/
theorem witness_NothingDisturbsARun_in_progress :
    MachineInv midRun ∧ RunOf [1, 2, 3, 4, 5] 0 false midRun ∧ Turn.host 0x1000000002 ≠ .reset
      ∧ ¬ beginsRun (.host 0x1000000002) midRun
      ∧ takeTurn (.host 0x1000000002) midRun = .next (withError .busyWrite midRun) :=
  ⟨witness_inv_body.1, .inl ⟨by decide, by decide, rfl, rfl, by decide⟩, by decide,
    fun h => absurd h.1 (by decide), rfl⟩

/-- A run that is over, and a START that an error keeps from beginning another. -/
theorem witness_NothingDisturbsARun_over :
    MachineInv { idleErr .badByte with done := true } ∧ RunOf [] 0 false { idleErr .badByte with done := true }
      ∧ ¬ beginsRun (.host 0x1000000001) { idleErr .badByte with done := true }
      ∧ takeTurn (.host 0x1000000001) { idleErr .badByte with done := true }
          = .next { idleErr .badByte with done := true } :=
  ⟨⟨by decide, by decide, fun _ h => absurd h List.not_mem_nil, fun _ h => absurd h List.not_mem_nil,
      by decide, Memory.filled_zero _, by decide, by decide, trivial⟩,
    .inr ⟨rfl, rfl, by decide⟩, fun h => absurd h.2.1 (by decide), rfl⟩
theorem witness_RunCompletesWithTheHash :
    MachineInv (keyed [1, 2]) ∧ (keyed [1, 2]).ph = .idle ∧ (keyed [1, 2]).err = false := witness_inv_idle
theorem witness_CallSequenceReturnsTheHash :
    MachineInv (keyed [1, 2]) ∧ (keyed [1, 2]).ph = .idle ∧ (keyed [1, 2]).err = false
      ∧ hundred = (some hundred).getD (keySeq (keyed [1, 2])) ∧ (0 : Word) = none.getD (keyed [1, 2]).seed
      ∧ hundred.length ≤ (keyed [1, 2]).config.keyCap.toNat ∧ Mover.reset ∉ [Mover.host, .engine] :=
  ⟨witness_inv_idle.1, witness_inv_idle.2.1, witness_inv_idle.2.2, rfl, rfl, by decide, by decide⟩
theorem witness_CallSequenceReturnsTheHash_refused :
    MachineInv (capped 2 (keyed [1, 2])) ∧ (capped 2 (keyed [1, 2])).ph = .idle
      ∧ (capped 2 (keyed [1, 2])).err = false ∧ (∃ w ∈ [(0x100 : Word)], w.extractLsb' 8 24 ≠ 0)
      ∧ (capped 2 (keyed [1, 2])).config.keyCap.toNat < [(1 : Word), 2, 3].length := by
  refine ⟨⟨by decide, by decide, ?_, ?_, by decide, ?_, by decide, by decide, trivial⟩, by decide, by decide,
    ⟨0x100, by decide, by decide⟩, by decide⟩
  · unfold Memory.below; decide
  · unfold Memory.below; decide
  · unfold Memory.filled; decide

/-- The Key [1, 2] again, with other values left in the engine's registers and in HASH. -/
def disturbed : State := { keyed [1, 2] with h := 9, rem := 7, i := 3, flen := 1, rm := true, hash := 5 }

theorem witness_inv_disturbed : MachineInv disturbed := by
  refine ⟨by decide, by decide, ?_, ?_, by decide, ?_, by decide, by decide, trivial⟩
  · unfold Memory.below; decide
  · unfold Memory.below; decide
  · unfold Memory.filled; decide

theorem witness_HashDependsOnItsInputsOnly :
    (MachineInv (keyed [1, 2]) ∧ MachineInv disturbed ∧ disturbed.ph = .idle ∧ disturbed.err = false
      ∧ keySeq (keyed [1, 2]) = keySeq disturbed ∧ (keyed [1, 2]).seed = disturbed.seed)
      ∧ (∃ t u, exec .start (keyed [1, 2]) = .next t ∧ takeTurns (List.replicate 4 .engine) t = .next u
          ∧ u.ph = .idle)
      ∧ ∃ t u, exec .start disturbed = .next t ∧ takeTurns (List.replicate 4 .engine) t = .next u :=
  ⟨⟨witness_inv_idle.1, witness_inv_disturbed, rfl, rfl, by decide, rfl⟩, ⟨_, _, rfl, rfl, rfl⟩, _, _, rfl, rfl⟩
theorem witness_MixingStepsAreInjective :
    mul32 7 mixMultiplier = mul32 7 mixMultiplier ∧ 1 ≤ 24 ∧ xorShr 7 24 = xorShr 7 24
      ∧ avalanche 7 = avalanche 7 := by decide
theorem witness_HashProperties :
    (∀ b ∈ [(97 : Byte), 11, 160], isWs b = false) ∧ hashOf [97] 3 true = hashOf [97] 3 true := by decide

end Sys2Proof.Tests
end

/-! What a row can do to the data the host gives and gets (SEED, KEYLEN, KEY, HASH, DONE) and to KEY_CAP, said
once; and which row a turn runs. -/

namespace Sys2Proof.Machine

/-! ### The effect of a row on the data -/

/-- The host's data, the result and the capacity are the same in both states. -/
structure SameData (s t : State) : Prop where
  seed : t.seed = s.seed := by rfl
  keylen : t.keylen = s.keylen := by rfl
  key : t.key = s.key := by rfl
  hash : t.hash = s.hash := by rfl
  done : t.done = s.done := by rfl
  config : t.config = s.config := by rfl

/-- Everything row `i` can do to the data: nothing, or the one write of a START, `clear`, `seed` or `push` accepted in
IDLE (R164 to R169), or of `final` (R131). -/
inductive DataEffect (s : State) : Instr → State → Prop
  | none {i : Instr} {t : State} (same : SameData s t) : DataEffect s i t
  | start {i : Instr} (rm : Bool) (ph : Phase) (row : i = .start ∨ i = .startRw) (idle : s.ph = .idle)
      (noErr : s.err = false) : DataEffect s i (beginRun rm ph s)
  | clear (idle : s.ph = .idle) : DataEffect s .clear (setKeylen 0 s)
  | seed (v : Word) (idle : s.ph = .idle) : DataEffect s (.seed v) (setSeed v s)
  | push (b : Byte) (idle : s.ph = .idle) : DataEffect s (.push b)
      { s with key := Memory.write s.key s.keylen.toNat b, keylen := s.keylen + 1 }
  | final (inFinal : s.ph = .final) : DataEffect s .final
      { s with h := avalanche s.h, hash := avalanche s.h, done := true, ph := .idle }

theorem Accepted.dataEffect {i : Instr} {s t : State} (idle : s.ph = .idle) (h : Accepted i s t) :
    DataEffect s i t := by
  obtain ⟨-, rfl⟩ | ⟨-, -, rfl⟩ | ⟨rfl, he, rfl⟩ | ⟨rfl, he, rfl⟩ | ⟨rfl, rfl⟩ | ⟨-, rfl⟩ | ⟨v, rfl, rfl⟩
    | ⟨b, rfl, -, rfl⟩ := h
  · exact .none {}
  · exact .none {}
  · exact .start false .init (.inl rfl) idle he
  · exact .start true .filt (.inr rfl) idle he
  · exact .clear idle
  · exact .none {}
  · exact .seed v idle
  · exact .push b idle

theorem TransactionEffect.dataEffect {i : Instr} {s t : State} (h : TransactionEffect i s t) :
    DataEffect s i t := by
  obtain ⟨-, v, rfl⟩ | ⟨-, c, -, -, -, rfl⟩ | ⟨-, idle, accepted⟩ := h
  · exact .none {}
  · exact .none {}
  · exact accepted.dataEffect idle

theorem execEngine_dataEffect {i : Instr} {s t : State} (hi : isTransaction i = false)
    (h : exec i s = .next t) : DataEffect s i t := by
  cases i
  case idle => obtain ⟨-, rfl⟩ := execIdle_cases h; exact .none {}
  case filtByte =>
    obtain ⟨-, -, b, -, ⟨-, rfl⟩ | ⟨-, -, rfl⟩⟩ := execFiltByte_cases h
    · exact .none {}
    · exact .none {}
  case filtExit => obtain ⟨-, -, rfl⟩ := execFiltExit_cases h; exact .none {}
  case init => obtain ⟨-, rfl⟩ := execInit_cases h; exact .none {}
  case bodyChunk => obtain ⟨-, -, k, -, rfl⟩ := execBodyChunk_cases h; exact .none {}
  case bodyExit => obtain ⟨-, -, rfl⟩ := execBodyExit_cases h; exact .none {}
  case tail => obtain ⟨-, x, -, rfl⟩ := execTail_cases h; exact .none {}
  case final => obtain ⟨hp, rfl⟩ := execFinal_cases h; exact .final hp
  all_goals cases hi

/-- Inversion of every row, host's and engine's, as far as the data goes. -/
theorem exec_dataEffect {i : Instr} {s t : State} (h : exec i s = .next t) : DataEffect s i t := by
  cases hi : isTransaction i with
  | true => exact (execTransaction_cases hi h).dataEffect
  | false => exact execEngine_dataEffect hi h

/-! ### Which row wrote -/

namespace DataEffect

variable {i : Instr} {s t : State}

theorem config_eq (h : DataEffect s i t) : t.config = s.config := by
  cases h with
  | none same => exact same.config
  | start | clear | seed | push | final => rfl

theorem final_of_hash_ne (h : DataEffect s i t) (hne : t.hash ≠ s.hash) : i = .final ∧ s.ph = .final := by
  cases h with
  | none same => exact absurd same.hash hne
  | start | clear | seed | push => exact absurd rfl hne
  | final inFinal => exact ⟨rfl, inFinal⟩

theorem done_cases (h : DataEffect s i t) :
    t.done = s.done ∨ (t.done = true ∧ i = .final ∧ s.ph = .final)
      ∨ (t.done = false ∧ (i = .start ∨ i = .startRw) ∧ s.ph = .idle ∧ s.err = false) := by
  cases h with
  | none same => exact .inl same.done
  | clear | seed | push => exact .inl rfl
  | final inFinal => exact .inr (.inl ⟨rfl, rfl, inFinal⟩)
  | start rm ph row idle noErr => exact .inr (.inr ⟨rfl, row, idle, noErr⟩)

theorem final_of_done_set (h : DataEffect s i t) (h0 : s.done = false) (h1 : t.done = true) :
    i = .final ∧ s.ph = .final := by
  obtain he | ⟨-, hfinal⟩ | ⟨hf, -⟩ := h.done_cases
  · simp [h0, h1] at he
  · exact hfinal
  · simp [h1] at hf

theorem start_of_done_cleared (h : DataEffect s i t) (h1 : s.done = true) (h0 : t.done = false) :
    (i = .start ∨ i = .startRw) ∧ s.ph = .idle ∧ s.err = false := by
  obtain he | ⟨ht, -⟩ | ⟨-, hstart⟩ := h.done_cases
  · simp [h0, h1] at he
  · simp [h0] at ht
  · exact hstart

theorem clear_or_push_of_keylen_ne (h : DataEffect s i t) (hne : t.keylen ≠ s.keylen) :
    s.ph = .idle ∧ (i = .clear ∨ ∃ b, i = .push b) := by
  cases h with
  | none same => exact absurd same.keylen hne
  | start | seed | final => exact absurd rfl hne
  | clear idle => exact ⟨idle, .inl rfl⟩
  | push b idle => exact ⟨idle, .inr ⟨b, rfl⟩⟩

theorem push_of_key_ne (h : DataEffect s i t) (hne : t.key ≠ s.key) :
    s.ph = .idle ∧ ∃ b, i = .push b := by
  cases h with
  | none same => exact absurd same.key hne
  | start | clear | seed | final => exact absurd rfl hne
  | push b idle => exact ⟨idle, b, rfl⟩

theorem seed_of_seed_ne (h : DataEffect s i t) (hne : t.seed ≠ s.seed) :
    s.ph = .idle ∧ i = .seed t.seed := by
  cases h with
  | none same => exact absurd same.seed hne
  | start | clear | push | final => exact absurd rfl hne
  | seed v idle => exact ⟨idle, rfl⟩

end DataEffect

/-! ### The row a turn runs -/

theorem isTransaction_decodeRead (reg : BitVec 4) (w : Word) : isTransaction (decodeRead reg w) = true := by
  unfold decodeRead
  split_ifs <;> rfl

theorem isTransaction_decodeCommand (w : Word) : isTransaction (decodeCommand w) = true := by
  unfold decodeCommand
  split_ifs <;> rfl

theorem isTransaction_decodeKeyData (w : Word) : isTransaction (decodeKeyData w) = true := by
  unfold decodeKeyData
  split_ifs <;> rfl

theorem isTransaction_decodeWrite (reg : BitVec 4) (w : Word) : isTransaction (decodeWrite reg w) = true := by
  unfold decodeWrite
  split_ifs
  any_goals rfl
  · exact isTransaction_decodeCommand w
  · exact isTransaction_decodeKeyData w

/-- The host's words name transactions only (R76). -/
@[simp] theorem isTransaction_decodeTw (tw : Tw) : isTransaction (decodeTw tw) = true := by
  unfold decodeTw
  split
  · exact isTransaction_decodeWrite ..
  · exact isTransaction_decodeRead ..

/-- The phase labels name engine rules only (R80). -/
theorem not_isTransaction_of_decodePhase {code : BitVec 3} {loop : Bool} {i : Instr}
    (h : decodePhase code loop = some i) : isTransaction i = false := by
  unfold decodePhase at h
  split_ifs at h <;> cases h <;> rfl

theorem not_isTransaction_of_engineRule {s : State} {i : Instr} (h : engineRule s = some i) :
    isTransaction i = false := by
  unfold engineRule at h
  split at h
  · cases h
  · exact not_isTransaction_of_decodePhase h

/-- In state `s` the turn runs row `i`: the host's word decodes to it, or it is the engine's enabled rule. -/
inductive RunsRow (s : State) : Turn → Instr → Prop
  | host (tw : Tw) : RunsRow s (.host tw) (decodeTw tw)
  | engine {i : Instr} (enabled : engineRule s = some i) : RunsRow s .engine i

theorem RunsRow.host_of_isTransaction {s : State} {turn : Turn} {i : Instr} (h : RunsRow s turn i)
    (hi : isTransaction i = true) : ∃ tw, turn = .host tw ∧ decodeTw tw = i := by
  cases h with
  | host tw => exact ⟨tw, rfl, rfl⟩
  | engine enabled => simp [not_isTransaction_of_engineRule enabled] at hi

theorem RunsRow.engine_of_not_isTransaction {s : State} {turn : Turn} {i : Instr} (h : RunsRow s turn i)
    (hi : isTransaction i = false) : turn = .engine := by
  cases h with
  | host tw => simp at hi
  | engine => rfl

/-- Inversion of a turn: a reset, or one row run. -/
theorem takeTurn_cases {turn : Turn} {s t : State} (h : takeTurn turn s = .next t) :
    (turn = .reset ∧ t = resetEvent s) ∨ ∃ i, RunsRow s turn i ∧ exec i s = .next t := by
  cases turn with
  | host tw => exact .inr ⟨_, .host tw, h⟩
  | reset => cases h; exact .inl ⟨rfl, rfl⟩
  | engine =>
    change engineTurn s = .next t at h
    unfold engineTurn at h
    split at h
    · next i enabled => exact .inr ⟨i, .engine enabled, h⟩
    · cases h

theorem takeTurn_config {turn : Turn} {s t : State} (h : takeTurn turn s = .next t) : t.config = s.config := by
  obtain ⟨-, rfl⟩ | ⟨i, -, hx⟩ := takeTurn_cases h
  · rfl
  · exact (exec_dataEffect hx).config_eq

/-! ### The statements about the state -/

/-- Settles O8: each clause is R40's value of one field of `State.reset`. -/
theorem resetStateHasTheStatedValues : Obligations.ResetStateHasTheStatedValues := by
  refine ⟨rfl, rfl, rfl, rfl, rfl, rfl, rfl, ?_⟩
  decide

/-- Settles O44: a turn keeps the capacity, and so does taking it off the agenda. -/
theorem capacityNeverChanges : Obligations.CapacityNeverChanges := by
  intro s t h
  calc t.config = (popTurn s).config := takeTurn_config h
    _ = s.config := popTurn_config s

/-- Settles O41: of all effects on the data only `final`'s writes HASH or sets DONE and only a START's clears DONE;
a turn other than reset runs one row. -/
theorem onlyFinalWritesHash : Obligations.OnlyFinalWritesHash := by
  refine ⟨fun i s t h => ?_, fun turn s t h => ?_⟩
  · have e := exec_dataEffect h
    exact ⟨fun hne => (e.final_of_hash_ne hne).1, fun h0 h1 => (e.final_of_done_set h0 h1).1,
      e.start_of_done_cleared⟩
  · obtain ⟨rfl, rfl⟩ | ⟨i, runs, hx⟩ := takeTurn_cases h
    · exact ⟨fun _ => .inl rfl, fun _ h1 => absurd h1 Bool.false_ne_true, fun _ _ => .inl rfl⟩
    · have e := exec_dataEffect hx
      have engineInFinal : i = .final ∧ s.ph = .final → turn = .engine ∧ s.ph = .final := by
        rintro ⟨rfl, hp⟩
        exact ⟨runs.engine_of_not_isTransaction rfl, hp⟩
      refine ⟨fun hne => .inr (engineInFinal (e.final_of_hash_ne hne)),
        fun h0 h1 => engineInFinal (e.final_of_done_set h0 h1), fun h1 h0 => .inr ?_⟩
      obtain ⟨row, idle, noErr⟩ := e.start_of_done_cleared h1 h0
      have hi : isTransaction i = true := by rcases row with rfl | rfl <;> rfl
      obtain ⟨tw, rfl, rfl⟩ := runs.host_of_isTransaction hi
      exact ⟨idle, noErr, tw, rfl, row⟩

/-- Settles O42: of all effects on the data only that of the command named writes each input, in IDLE; a turn other
than reset runs one row, and these rows are the host's. -/
theorem inputsChangeOnlyByTheirCommands : Obligations.InputsChangeOnlyByTheirCommands := by
  refine ⟨fun i s t h => ?_, fun turn s t h => ?_⟩
  · have e := exec_dataEffect h
    exact ⟨fun hne => (e.clear_or_push_of_keylen_ne hne).2, fun hne => (e.push_of_key_ne hne).2,
      fun hne => (e.seed_of_seed_ne hne).2⟩
  · obtain ⟨rfl, -⟩ | ⟨i, runs, hx⟩ := takeTurn_cases h
    · exact ⟨fun _ => .inl rfl, fun _ => .inl rfl, fun _ => .inl rfl⟩
    · have e := exec_dataEffect hx
      refine ⟨fun hne => .inr ?_, fun hne => .inr ?_, fun hne => .inr ?_⟩
      · obtain ⟨idle, row⟩ := e.clear_or_push_of_keylen_ne hne
        have hi : isTransaction i = true := by rcases row with rfl | ⟨b, rfl⟩ <;> rfl
        obtain ⟨tw, rfl, rfl⟩ := runs.host_of_isTransaction hi
        exact ⟨tw, rfl, idle, row⟩
      · obtain ⟨idle, b, rfl⟩ := e.push_of_key_ne hne
        obtain ⟨tw, rfl, hd⟩ := runs.host_of_isTransaction rfl
        exact ⟨tw, rfl, idle, b, hd⟩
      · obtain ⟨idle, rfl⟩ := e.seed_of_seed_ne hne
        obtain ⟨tw, rfl, hd⟩ := runs.host_of_isTransaction rfl
        exact ⟨tw, rfl, idle, hd⟩

end Sys2Proof.Machine

/-! What stops no step: the rows that answer a next state, from a state that meets the invariant; and what a row
leaves alone, the engine's and, in a run, the host's. -/

namespace Sys2Proof.Machine

/-! ### Progress (R57, R136, R203) -/

/-- Taking a turn off the agenda touches nothing the invariant reads. -/
theorem MachineInv.popTurn {s : State} (hI : MachineInv s) : MachineInv (popTurn s) :=
  { hI with phase := hI.phase.congr rfl rfl rfl rfl rfl rfl rfl rfl rfl rfl }

theorem execPush_next {s : State} (b : Byte) (hI : MachineInv s) : ∃ t, execPush b s = .next t := by
  by_cases hp : s.ph = .idle
  · by_cases he : s.keylen = s.config.keyCap
    · exact ⟨_, execPush_full b hp he⟩
    · exact ⟨_, execPush_idle b hp (BitVec.lt_of_le_ne hI.keylenWithin he)⟩
  · exact ⟨_, execPush_busy b hp⟩

/-- Every transaction completes: only a `push` needs the invariant, for an index to write at (R57). -/
theorem execTransaction_next {i : Instr} {s : State} (hi : isTransaction i = true) (hI : MachineInv s) :
    ∃ t, exec i s = .next t := by
  cases i
  case push b => exact execPush_next b hI
  case nop | start | startRw | clear | clrerr | seed | cmdIllegal | pushBad =>
    simp only [exec_nop, exec_start, exec_startRw, exec_clear, exec_clrerr, exec_seed, exec_cmdIllegal, exec_pushBad]
    exact whenIdle_next fun _ => ⟨_, rfl⟩
  case wrBadR1 | wrBadR4 | wrBadR5 | wrBadR6 | wrBadR7 | wrBadR8to15 => exact ⟨_, rfl⟩
  case rdStatus | rdSeed | rdKeylen | rdHash | rdKeycap | rdZeroR0 | rdZeroR3 | rdZeroR7 | rdZeroR8to15 =>
    exact ⟨_, rfl⟩
  case idle | filtByte | filtExit | init | bodyChunk | bodyExit | tail | final => cases hi

theorem filtKeep_next {s : State} (b : Byte) (hroom : s.flen.toNat < s.config.keyCap.toNat) :
    ∃ t, filtKeep b s = .next t := by
  unfold filtKeep
  split
  · exact ⟨_, rfl⟩
  · rw [writeFbuf_of_lt b hroom]
    exact ⟨_, rfl⟩

/-- FILT's body: the byte at `j` is a byte of the Key, and FBUF, no longer than `j`, has room for it. -/
theorem execFiltByte_next {s : State} (hI : MachineInv s) (hp : s.ph = .filt) (hj : s.j < s.keylen) :
    ∃ t, execFiltByte s = .next t := by
  have hphase := hI.phase
  simp only [PhaseInv, hp] at hphase
  obtain ⟨-, hflen, -, -, -⟩ := hphase
  have hroom : s.flen.toNat < s.config.keyCap.toNat := calc
    s.flen.toNat ≤ s.j.toNat := hflen
    _ < s.keylen.toNat := hj
    _ ≤ s.config.keyCap.toNat := hI.keylenWithin
  obtain ⟨b, hb⟩ := Option.isSome_iff_exists.mp (hI.keyFilled s.j.toNat hj)
  have hread : readByte .key s.j.toNat s = some b := readByte_eq_some.mpr ⟨hj, hb⟩
  rw [execFiltByte, if_pos ⟨hp, hj⟩, hread]
  exact filtKeep_next b hroom

theorem execBodyChunk_next {s : State} (hI : MachineInv s) (hp : s.ph = .body) (hr : 4 ≤ s.rem) :
    ∃ t, execBodyChunk s = .next t := by
  obtain ⟨b0, b1, b2, b3, hchunk, -⟩ := body_bytes hI hp hr
  rw [execBodyChunk, if_pos ⟨hp, hr⟩, hchunk]
  exact ⟨_, rfl⟩

theorem execTail_next {s : State} (hI : MachineInv s) (hp : s.ph = .tail) : ∃ t, execTail s = .next t := by
  obtain ⟨x, hx, -⟩ := tail_bytes hI hp
  rw [execTail, if_pos hp, hx]
  exact ⟨_, rfl⟩

/-- In FILT `j` is at most KEYLEN, so one of the phase's two rules is enabled (R34). -/
theorem engineTurn_filt_next {s : State} (hI : MachineInv s) (hp : s.ph = .filt) : ∃ t, engineTurn s = .next t := by
  have hphase := hI.phase
  simp only [PhaseInv, hp] at hphase
  obtain ⟨-, -, hle, -, -⟩ := hphase
  by_cases he : s.j = s.keylen
  · rw [engineTurn_filtExit hp he]
    exact ⟨_, if_pos ⟨hp, he⟩⟩
  · have hlt : s.j < s.keylen := BitVec.lt_of_le_ne hle he
    rw [engineTurn_filtByte hp hlt]
    exact execFiltByte_next hI hp hlt

theorem engineTurn_body_next {s : State} (hI : MachineInv s) (hp : s.ph = .body) : ∃ t, engineTurn s = .next t := by
  by_cases hr : 4 ≤ s.rem
  · rw [engineTurn_bodyChunk hp hr]
    exact execBodyChunk_next hI hp hr
  · have hlt : s.rem < 4 := BitVec.not_le.mp hr
    rw [engineTurn_bodyExit hp hlt]
    exact ⟨_, if_pos ⟨hp, hlt⟩⟩

/-- The engine is never stuck, phase by phase (R136). -/
theorem engineTurn_next {s : State} (hI : MachineInv s) : ∃ t, engineTurn s = .next t := by
  match hp : s.ph with
  | .idle => exact ⟨_, (engineTurn_idle hp).trans (if_pos hp)⟩
  | .filt => exact engineTurn_filt_next hI hp
  | .init => exact ⟨_, (engineTurn_init hp).trans (if_pos hp)⟩
  | .body => exact engineTurn_body_next hI hp
  | .tail =>
    rw [engineTurn_tail hp]
    exact execTail_next hI hp
  | .final => exact ⟨_, (engineTurn_final hp).trans (if_pos hp)⟩

theorem takeTurn_next {s : State} (turn : Turn) (hI : MachineInv s) : ∃ t, takeTurn turn s = .next t := by
  cases turn with
  | host tw => exact execTransaction_next (isTransaction_decodeTw tw) hI
  | engine => exact engineTurn_next hI
  | reset => exact ⟨_, rfl⟩

/-- Settles O48: the state with the turn taken off the agenda meets the invariant too, and there every turn
completes. -/
theorem stepNeverStops : Obligations.StepNeverStops := fun s hI => takeTurn_next (nextTurn s) hI.popTurn

/-! ### What a row leaves alone -/

/-- An engine rule writes its own registers, FBUF, `ph`, HASH and DONE, and no other field (R58). -/
theorem execEngine_frame {i : Instr} {s t : State} (hi : isTransaction i = false) (h : exec i s = .next t) :
    t = { s with
      ph := t.ph, hash := t.hash, done := t.done, h := t.h, len := t.len, i := t.i, rem := t.rem, j := t.j,
      flen := t.flen, fbuf := t.fbuf } := by
  cases i
  case idle => obtain ⟨-, rfl⟩ := execIdle_cases h; rfl
  case filtByte => obtain ⟨-, -, b, -, ⟨-, rfl⟩ | ⟨-, -, rfl⟩⟩ := execFiltByte_cases h <;> rfl
  case filtExit => obtain ⟨-, -, rfl⟩ := execFiltExit_cases h; rfl
  case init => obtain ⟨-, rfl⟩ := execInit_cases h; rfl
  case bodyChunk => obtain ⟨-, -, k, -, rfl⟩ := execBodyChunk_cases h; rfl
  case bodyExit => obtain ⟨-, -, rfl⟩ := execBodyExit_cases h; rfl
  case tail => obtain ⟨-, x, -, rfl⟩ := execTail_cases h; rfl
  case final => obtain ⟨-, rfl⟩ := execFinal_cases h; rfl
  all_goals cases hi

/-- Settles O37: none of the nine fields is among those an engine rule writes. -/
theorem engineLeavesInputsAndErrorsAlone : Obligations.EngineLeavesInputsAndErrorsAlone := by
  intro i s t hi h
  rw [execEngine_frame hi h]
  exact ⟨rfl, rfl, rfl, rfl, rfl, rfl, rfl, rfl, rfl⟩

/-- Settles O38: a transaction replies, raises an error, or is accepted, and it is accepted in IDLE only. -/
theorem hostLeavesARunAlone : Obligations.HostLeavesARunAlone := by
  intro i s t hi running h
  obtain ⟨-, v, rfl⟩ | ⟨-, c, -, -, -, rfl⟩ | ⟨-, idle, -⟩ := execTransaction_cases hi h
  · rfl
  · rfl
  · exact absurd idle running

/-! ### The run a START begins (R60, R164, R165) -/

/-- Without the filter the sequence hashed is the Key itself. -/
theorem runOf_beginRun_init (s : State) : RunOf (keySeq s) s.seed false (beginRun false .init s) :=
  .inl ⟨Phase.noConfusion, rfl, rfl, rfl, rfl⟩

/-- With the filter FBUF is empty yet and the whole Key is still to be filtered. -/
theorem pendingHash_beginRun_filt (s : State) :
    pendingHash (beginRun true .filt s) = hashOf (keySeq s) s.seed true := calc
  pendingHash (beginRun true .filt s) = murmur2 ([] ++ filterWs ((keySeq s).drop 0)) s.seed := rfl
  _ = hashOf (keySeq s) s.seed true := by rw [List.nil_append, List.drop_zero]; rfl

theorem runOf_beginRun_filt (s : State) : RunOf (keySeq s) s.seed true (beginRun true .filt s) :=
  .inl ⟨Phase.noConfusion, rfl, rfl, rfl, pendingHash_beginRun_filt s⟩

/-- Settles O51: in IDLE with no error standing each START answers the state `beginRun` leaves. -/
theorem startBeginsTheRunOfItsInputs : Obligations.StartBeginsTheRunOfItsInputs := by
  intro s _ idle noErr
  have hstart : exec .start s = .next (beginRun false .init s) := by
    simp [exec_start, whenIdle_idle idle, noErr]
  have hstartRw : exec .startRw s = .next (beginRun true .filt s) := by
    simp [exec_startRw, whenIdle_idle idle, noErr]
  exact ⟨⟨_, hstart, Phase.noConfusion, runOf_beginRun_init s⟩,
    ⟨_, hstartRw, Phase.noConfusion, runOf_beginRun_filt s⟩⟩

/-! ### The primitives as numbers (R52, R91, R97, R98) -/

theorem toNat_shr (a : Word) (n : Nat) : (shr a n).toNat = a.toNat / 2 ^ n := by
  rw [shr, BitVec.toNat_ushiftRight, Nat.shiftRight_eq_div_pow]

theorem toNat_shl (a : Word) (n : Nat) : (shl a n).toNat = a.toNat * 2 ^ n % 2 ^ 32 := by
  rw [shl, BitVec.toNat_shiftLeft, Nat.shiftLeft_eq]

/-- A concatenation as a number: the high part counts in units of the low part's range. -/
theorem toNat_append_eq_add {v w : Nat} (x : BitVec v) (y : BitVec w) :
    (x ++ y).toNat = 2 ^ w * x.toNat + y.toNat := by
  rw [BitVec.toNat_append, ← Nat.shiftLeft_add_eq_or_of_lt y.isLt, Nat.shiftLeft_eq, Nat.mul_comm]

theorem toNat_wordOfBytes (b0 b1 b2 b3 : Byte) :
    (wordOfBytes b0 b1 b2 b3).toNat
      = b0.toNat + 2 ^ 8 * b1.toNat + 2 ^ 16 * b2.toNat + 2 ^ 24 * b3.toNat := by
  have happend : (wordOfBytes b0 b1 b2 b3).toNat = (b3 ++ b2 ++ b1 ++ b0).toNat :=
    congrArg BitVec.toNat (wordOfBytes_append b0 b1 b2 b3)
  rw [happend, toNat_append_eq_add, toNat_append_eq_add, toNat_append_eq_add]
  omega

/-- Settles O56: one lemma for each primitive. -/
theorem primitivesAsNumbers : Obligations.PrimitivesAsNumbers :=
  ⟨toNat_mul32, toNat_shr, toNat_shl, toNat_wordOfBytes⟩

end Sys2Proof.Machine

/-! Decoding and encoding of transaction words (spec/30_encoding.md R70 to R76): the word a row is spelled by, and that
decoding finds the one well-formed row of each word. -/

namespace Sys2Proof

/-! ### Decoding a read and a write -/

theorem decodeTw_read (reg : BitVec 4) (w : Word) : decodeTw (makeTw false reg w) = decodeRead reg w :=
  decodeTw_makeTw false reg w

theorem decodeTw_write (reg : BitVec 4) (w : Word) : decodeTw (makeTw true reg w) = decodeWrite reg w :=
  decodeTw_makeTw true reg w

theorem decodeTw_push (b : Byte) : decodeTw (makeTw true 3 (zext32 b)) = .push b :=
  (decodeTw_write 3 _).trans (decodeKeyData_zext b)

theorem decodeTw_pushBad {w : Word} (h : w.extractLsb' 8 24 ≠ 0) : decodeTw (makeTw true 3 w) = .pushBad w :=
  (decodeTw_write 3 w).trans (decodeKeyData_bad h)

theorem decodeTw_cmdIllegal {w : Word} (h : w ∉ legalCommands) : decodeTw (makeTw true 0 w) = .cmdIllegal w :=
  (decodeTw_write 0 w).trans (decodeCommand_illegal h)

theorem decodeTw_read_high {reg : BitVec 4} (w : Word) (h : 8 ≤ reg) :
    decodeTw (makeTw false reg w) = .rdZeroR8to15 reg w :=
  (decodeTw_read reg w).trans (decodeRead_high w h)

theorem decodeTw_write_high {reg : BitVec 4} (w : Word) (h : 8 ≤ reg) :
    decodeTw (makeTw true reg w) = .wrBadR8to15 reg w :=
  (decodeTw_write reg w).trans (decodeWrite_high w h)

/-- Settles O2: a read and a write are told by the register, and the data word is looked at in registers 0 and 3
only. -/
theorem decodeFollowsTheProcedure : Obligations.DecodeFollowsTheProcedure := by
  refine ⟨fun w => ?reads, fun _ w h => decodeTw_read_high w h, fun w => ?writes,
    fun _ w h => decodeTw_write_high w h, fun b => ?push, fun _ h => decodeTw_pushBad h,
    decodeTw_write 0 _, decodeTw_write 0 _, decodeTw_write 0 _, decodeTw_write 0 _, decodeTw_write 0 _,
    fun _ h => decodeTw_cmdIllegal h⟩
  case reads =>
    exact ⟨decodeTw_read 0 w, decodeTw_read 1 w, decodeTw_read 2 w, decodeTw_read 3 w, decodeTw_read 4 w,
      decodeTw_read 5 w, decodeTw_read 6 w, decodeTw_read 7 w⟩
  case writes =>
    exact ⟨decodeTw_write 1 w, decodeTw_write 4 w, decodeTw_write 5 w, decodeTw_write 6 w, decodeTw_write 7 w,
      decodeTw_write 2 w⟩
  case push =>
    rw [append_eq_zext32]
    exact decodeTw_push b

/-! ### The word of a row (R75) -/

/-- Row `i` is well formed and `tw` is its transaction word. -/
structure Spells (i : Instr) (tw : Tw) : Prop where
  wf : i.wf = true
  encode_eq : encode i = .tw tw

theorem wf_cmdIllegal_iff {w : Word} : (Instr.cmdIllegal w).wf = true ↔ w ∉ legalCommands := by
  simp [Instr.wf]

theorem wf_pushBad_iff {w : Word} : (Instr.pushBad w).wf = true ↔ w.extractLsb' 8 24 ≠ 0 := bne_iff_ne

theorem spells_decodeRead (reg : BitVec 4) (w : Word) : Spells (decodeRead reg w) (makeTw false reg w) := by
  rcases reg_cases reg with rfl | rfl | rfl | rfl | rfl | rfl | rfl | rfl | high
  case inr.inr.inr.inr.inr.inr.inr.inr =>
    rw [decodeRead_high w high]
    exact ⟨decide_eq_true high, rfl⟩
  all_goals exact ⟨rfl, rfl⟩

theorem spells_decodeCommand (w : Word) : Spells (decodeCommand w) (makeTw true 0 w) := by
  obtain ⟨rfl, h⟩ | ⟨rfl, h⟩ | ⟨rfl, h⟩ | ⟨rfl, h⟩ | ⟨rfl, h⟩ | ⟨illegal, h⟩ := decodeCommand_cases w <;> rw [h]
  case inr.inr.inr.inr.inr => exact ⟨wf_cmdIllegal_iff.mpr illegal, rfl⟩
  all_goals exact ⟨rfl, rfl⟩

theorem spells_decodeKeyData (w : Word) : Spells (decodeKeyData w) (makeTw true 3 w) := by
  by_cases h : w.extractLsb' 8 24 = 0
  · rw [decodeKeyData_byte h]
    refine ⟨rfl, ?_⟩
    rw [encode, zext32_of_high_zero w h]
  · rw [decodeKeyData_bad h]
    exact ⟨wf_pushBad_iff.mpr h, rfl⟩

theorem spells_decodeWrite (reg : BitVec 4) (w : Word) : Spells (decodeWrite reg w) (makeTw true reg w) := by
  rcases reg_cases reg with rfl | rfl | rfl | rfl | rfl | rfl | rfl | rfl | high
  case inl => exact spells_decodeCommand w
  case inr.inr.inr.inl => exact spells_decodeKeyData w
  case inr.inr.inr.inr.inr.inr.inr.inr =>
    rw [decodeWrite_high w high]
    exact ⟨decide_eq_true high, rfl⟩
  all_goals exact ⟨rfl, rfl⟩

theorem spells_decodeTw (tw : Tw) : Spells (decodeTw tw) tw := by
  rw [← makeTw_fields tw]
  cases twWe tw with
  | false => rw [decodeTw_read]; exact spells_decodeRead ..
  | true => rw [decodeTw_write]; exact spells_decodeWrite ..

/-- A word decodes to any well-formed row that spells it, so to the only one. -/
theorem Spells.decodeTw_eq {i : Instr} {tw : Tw} (h : Spells i tw) : decodeTw tw = i := by
  obtain ⟨wf, hword⟩ := h
  cases i <;> cases hword
  case push b => exact decodeTw_push b
  case pushBad w => exact decodeTw_pushBad (wf_pushBad_iff.mp wf)
  case cmdIllegal w => exact decodeTw_cmdIllegal (wf_cmdIllegal_iff.mp wf)
  case wrBadR8to15 reg w => exact decodeTw_write_high w (of_decide_eq_true wf)
  case rdZeroR8to15 reg w => exact decodeTw_read_high w (of_decide_eq_true wf)
  case nop | start | startRw | clear | clrerr => exact decodeTw_write 0 _
  case seed | wrBadR1 | wrBadR4 | wrBadR5 | wrBadR6 | wrBadR7 => exact decodeTw_write _ _
  case rdStatus | rdSeed | rdKeylen | rdHash | rdKeycap | rdZeroR0 | rdZeroR3 | rdZeroR7 =>
    exact decodeTw_read _ _

theorem encode_eq_tw_of_isTransaction {i : Instr} (hi : Machine.isTransaction i = true) :
    ∃ tw, encode i = .tw tw := by
  cases i
  case idle | filtByte | filtExit | init | bodyChunk | bodyExit | tail | final => cases hi
  all_goals exact ⟨_, rfl⟩

/-- Settles O4: the row a word decodes to spells it, and two rows with one word are both what it decodes to. -/
theorem encodeOfDecodeIsTheWord : Obligations.EncodeOfDecodeIsTheWord := by
  refine ⟨fun tw => ?_, fun i i' wf wf' hi _ heq => ?_⟩
  · exact ⟨(spells_decodeTw tw).wf, Machine.isTransaction_decodeTw tw, (spells_decodeTw tw).encode_eq⟩
  · obtain ⟨tw, hword⟩ := encode_eq_tw_of_isTransaction hi
    have spells : Spells i tw := ⟨wf, hword⟩
    have spells' : Spells i' tw := ⟨wf', heq ▸ hword⟩
    exact spells.decodeTw_eq.symm.trans spells'.decodeTw_eq

end Sys2Proof

/-! The multiplier and the mixing steps (spec/40_u32_multiply_modular.md R92 to R95): the 16-bit split computes the
product, and no step of the avalanche loses anything. -/

namespace Sys2Proof.Machine

/-! ### The split multiplier (R92, R93) -/

/-- A word as a number, from its 16-bit halves. -/
theorem toNat_eq_halves (a : Word) :
    a.toNat = 2 ^ 16 * (a.extractLsb' 16 16).toNat + (a.extractLsb' 0 16).toNat := by
  rw [BitVec.extractLsb'_toNat, BitVec.extractLsb'_toNat, Nat.shiftRight_zero, Nat.shiftRight_eq_div_pow]
  have hlt := a.isLt
  omega

/-- R93: the product of the high halves counts in units of `2^32`, and truncating the cross term loses only such
units. -/
theorem split_product_mod (aHi aLo bHi bLo : Nat) :
    (aLo * bLo + (aHi * bLo + aLo * bHi) * 2 ^ 16 % 2 ^ 32) % 2 ^ 32
      = (2 ^ 16 * aHi + aLo) * (2 ^ 16 * bHi + bLo) % 2 ^ 32 := by
  have expand : (2 ^ 16 * aHi + aLo) * (2 ^ 16 * bHi + bLo)
      = aLo * bLo + (aHi * bLo + aLo * bHi) * 2 ^ 16 + 2 ^ 32 * (aHi * bHi) := by ring
  rw [expand, Nat.add_mul_mod_self_left, Nat.add_mod_mod]

/-- Settles O57: both words are written by their halves and the products compared modulo `2^32`. -/
theorem splitMultiplierIsTheProduct : Obligations.SplitMultiplierIsTheProduct := by
  intro a b
  apply BitVec.eq_of_toNat_eq
  rw [toNat_mul32, toNat_eq_halves a, toNat_eq_halves b, ← split_product_mod, mul32Split, BitVec.toNat_ofNat]

/-! ### The mixing steps lose nothing (R94, R95) -/

/-- The inverse of the odd `M` modulo `2^32`. -/
def mixInverse : Word := 0xe59b19bd

theorem mul32_mixMultiplier_mixInverse (x : Word) : mul32 (mul32 x mixMultiplier) mixInverse = x := by
  have inverse : mixMultiplier * mixInverse = 1#32 := by decide
  rw [mul32_eq_mul, mul32_eq_mul, BitVec.mul_assoc, inverse, BitVec.mul_one]

/-- R94: multiplying by `M` is undone by multiplying by its inverse. -/
theorem mul32_mixMultiplier_injective : Function.Injective (mul32 · mixMultiplier) :=
  Function.LeftInverse.injective (g := (mul32 · mixInverse)) mul32_mixMultiplier_mixInverse

/-- Only 0 is its own shift: halving makes any other number smaller. -/
theorem eq_zero_of_eq_shr {n : Nat} (hn : 1 ≤ n) {z : Word} (hz : z = shr z n) : z = 0 := by
  have hdiv : z.toNat = z.toNat / 2 ^ n := (congrArg BitVec.toNat hz).trans (toNat_shr z n)
  by_contra hne
  have hpos : 0 < z.toNat := Nat.pos_of_ne_zero fun h => hne (BitVec.eq_of_toNat_eq h)
  exact (Nat.div_lt_self hpos (Nat.one_lt_two_pow (Nat.one_le_iff_ne_zero.mp hn))).ne hdiv.symm

/-- R95: the xor of two words with one shift-xor is its own shift, so it is 0. -/
theorem xorShr_injective {n : Nat} (hn : 1 ≤ n) : Function.Injective (xorShr · n) := by
  intro x y (heq : x ^^^ shr x n = y ^^^ shr y n)
  have own : x ^^^ y = shr (x ^^^ y) n := by
    have regroup : (x ^^^ y) ^^^ (shr x n ^^^ shr y n) = (x ^^^ shr x n) ^^^ (y ^^^ shr y n) := by ac_rfl
    rw [heq, BitVec.xor_self] at regroup
    exact (BitVec.xor_eq_zero_iff.mp regroup).trans (BitVec.ushiftRight_xor_distrib x y n).symm
  exact BitVec.xor_eq_zero_iff.mp (eq_zero_of_eq_shr hn own)

/-- R95: the avalanche is a shift-xor of a multiple by `M` of a shift-xor. -/
theorem avalanche_injective : Function.Injective avalanche :=
  (xorShr_injective (by decide)).comp (mul32_mixMultiplier_injective.comp (xorShr_injective (by decide)))

theorem avalanche_zero : avalanche 0 = 0 := by decide

/-- Settles O58: one lemma for each step. -/
theorem mixingStepsAreInjective : Obligations.MixingStepsAreInjective :=
  ⟨fun _ _ h => mul32_mixMultiplier_injective h, fun _ _ _ hn h => xorShr_injective hn h,
    fun _ _ h => avalanche_injective h, avalanche_zero⟩

end Sys2Proof.Machine

/-! The whitespace filter (spec/41_whitespace_filter.md): the function of R112 with the properties of R113, and the
two steps of the phase FILT that computes it (R114, R115). -/

namespace Sys2Proof.Machine

/-! ### The four whitespace bytes (R111) -/

theorem isWs_iff_mem {b : Byte} : isWs b = true ↔ b ∈ [(9 : Byte), 10, 13, 32] := List.contains_iff_mem

theorem isWs_eq_false_iff_not_mem {b : Byte} : isWs b = false ↔ b ∉ [(9 : Byte), 10, 13, 32] := by
  rw [← isWs_iff_mem, Bool.not_eq_true]

theorem isWs_iff {b : Byte} : isWs b = true ↔ b = 9 ∨ b = 10 ∨ b = 13 ∨ b = 32 := by
  simp only [isWs_iff_mem, List.mem_cons, List.not_mem_nil, or_false]

/-! ### The function (R112, R113) -/

theorem filterWs_snoc (s : List Byte) (b : Byte) :
    filterWs (s ++ [b]) = if isWs b then filterWs s else filterWs s ++ [b] := by
  rw [filterWs_append, filterWs_singleton]
  split
  · exact List.append_nil _
  · rfl

theorem filterWs_sublist (s : List Byte) : (filterWs s).Sublist s := List.filter_sublist

theorem filterWs_idem (s : List Byte) : filterWs (filterWs s) = filterWs s := by
  simp only [filterWs, List.filter_filter, Bool.and_self]

/-- The length is kept exactly where every byte passes the filter. -/
theorem length_filterWs_eq_iff {s : List Byte} : (filterWs s).length = s.length ↔ ∀ b ∈ s, isWs b = false := by
  rw [filterWs, List.length_filter_eq_length_iff]
  simp only [Bool.not_eq_true']

/-- Settles O59: appending a byte is the recursion of R112; the items of R113 are one lemma each. -/
theorem filterRemovesExactlyTheWhitespace : Obligations.FilterRemovesExactlyTheWhitespace := by
  refine ⟨filterWs_nil, fun s b => ?_, filterWs_sublist, filterWs_idem, filterWs_append, length_filterWs_le,
    fun _ => length_filterWs_eq_iff⟩
  rw [filterWs_snoc]
  exact if_congr isWs_iff rfl rfl

/-! ### The steps of FILT (R114, R115) -/

section
variable {b : Byte} {s : State} (inFilt : s.ph = .filt)
include inFilt

/-- Where KEY holds `b` at `j`, filt.byte is what the filter does with `b`. -/
theorem exec_filtByte_eq_filtKeep (hj : s.j < s.keylen) (hb : Memory.read s.key s.j.toNat = some b) :
    exec .filtByte s = filtKeep b s := by
  have hread : readByte .key s.j.toNat s = some b := readByte_eq_some.mpr ⟨hj, hb⟩
  rw [exec, execFiltByte, if_pos ⟨inFilt, hj⟩, hread]

theorem filtKeep_of_isWs (ws : isWs b = true) : filtKeep b s = .next { s with j := s.j + 1 } := by
  rw [filtKeep, if_pos ws, ← inFilt]

theorem filtKeep_of_not_isWs (keep : isWs b = false) (room : s.flen < s.config.keyCap) :
    filtKeep b s =
      .next { s with fbuf := Memory.write s.fbuf s.flen.toNat b, flen := s.flen + 1, j := s.j + 1 } := by
  rw [filtKeep, if_neg (Bool.eq_false_iff.mp keep), writeFbuf_of_lt b room, ← inFilt]

theorem exec_filtExit (hj : s.j = s.keylen) : exec .filtExit s = .next { s with ph := .init } :=
  if_pos ⟨inFilt, hj⟩

/-- Item 5 of R41 where the whole Key is examined. -/
theorem MachineInv.fbufSeq_eq_filterWs_keySeq (hI : MachineInv s) (hj : s.j = s.keylen) :
    fbufSeq s = filterWs (keySeq s) := by
  have hphase := hI.phase
  simp only [PhaseInv, inFilt] at hphase
  obtain ⟨-, -, -, -, examined⟩ := hphase
  have whole : (keySeq s).take s.j.toNat = keySeq s := by
    rw [hj, ← length_keySeq, List.take_length]
  rwa [whole] at examined

end

/-- Settles O29: the byte at `j` is whitespace and dropped, or it is the one byte FBUF is written with. -/
theorem filtByteKeepsWhatIsNotWhitespace : Obligations.FiltByteKeepsWhatIsNotWhitespace := by
  refine ⟨rfl, fun b s inFilt hj hb => ?_⟩
  rw [exec_filtByte_eq_filtKeep inFilt hj hb]
  refine ⟨fun ws => filtKeep_of_isWs inFilt (isWs_iff_mem.mpr ws), fun keep room => ?_⟩
  exact ⟨_, filtKeep_of_not_isWs inFilt (isWs_eq_false_iff_not_mem.mpr keep) room, rfl,
    Memory.read_write_same .., fun a ha => Memory.read_write_other _ _ a b ha⟩

/-- Settles O30: the exit writes `ph`, and with `j` at KEYLEN the invariant of FILT is about the whole Key. -/
theorem filtExitGoesToInit : Obligations.FiltExitGoesToInit :=
  ⟨rfl, fun _ inFilt hj => ⟨exec_filtExit inFilt hj, fun hI => hI.fbufSeq_eq_filterWs_keySeq inFilt hj⟩⟩

end Sys2Proof.Machine

/-! The engine's rules one by one (spec/42_hash_engine.md sections 2 to 4, R127 to R133, R136): what each writes, the
edge of the phase graph it makes, and that at most one is enabled. -/

namespace Sys2Proof.Machine

/-! ### What each rule writes -/

/-- Settles O31: the length of SRC is `flen` with the flag latched and KEYLEN without. -/
theorem initFoldsTheLengthIntoTheSeed : Obligations.InitFoldsTheLengthIntoTheSeed := by
  refine ⟨rfl, fun s hp => ?_⟩
  have hinit : exec .init s =
      .next { s with len := srcLen s, h := s.seed ^^^ srcLen s, i := 0, rem := srcLen s, ph := .body } := if_pos hp
  refine ⟨fun hrm => ?_, fun hrm => ?_⟩
  · have hlen : srcLen s = s.flen := if_pos hrm
    rw [hinit, hlen]
  · have hlen : srcLen s = s.keylen := if_neg (Bool.eq_false_iff.mp hrm)
    rw [hinit, hlen]

/-- Settles O32: the four bytes are one little-endian word. -/
theorem bodyChunkMixesOneWord : Obligations.BodyChunkMixesOneWord := by
  refine ⟨rfl, fun b0 b1 b2 b3 s hp hr h0 h1 h2 h3 => ?_⟩
  have hchunk : srcChunk s = some (b3 ++ b2 ++ b1 ++ b0 : BitVec (8 + 8 + 8 + 8)) :=
    (readWord_of_bytes h0 h1 h2 h3).trans (congrArg some (wordOfBytes_append b0 b1 b2 b3))
  rw [exec, execBodyChunk, if_pos ⟨hp, hr⟩, hchunk, ← hp]
  simp only [bodyStep, mixK, mul32_eq_mul]
  rfl

/-- Settles O33: with fewer than 4 bytes left the exit is the rule enabled. -/
theorem bodyExitGoesToTail : Obligations.BodyExitGoesToTail := ⟨rfl, fun _ hp hr => if_pos ⟨hp, hr⟩⟩

/-- What tail does once its xor lines have answered. -/
theorem exec_tail {s : State} {x : Word} (hp : s.ph = .tail) (hx : tailXors s = some x) :
    exec .tail s = .next { s with h := if 1 ≤ s.rem then mul32 x mixMultiplier else x, ph := .final } := by
  rw [exec, execTail, if_pos hp, hx]

theorem exec_tail_of_rem {s : State} {x : Word} (hp : s.ph = .tail) (hr : 1 ≤ s.rem) (hx : tailXors s = some x) :
    exec .tail s = .next { s with h := x * 0x5bd1e995, ph := .final } := by
  rw [exec_tail hp hx, if_pos hr, mul32_eq_mul, mixMultiplier]

/-- Settles O34: which of the three xor lines apply is told by `rem`, and each that applies reads its byte. -/
theorem tailFoldsTheRemainingBytes : Obligations.TailFoldsTheRemainingBytes := by
  refine ⟨rfl, fun b0 b1 b2 s hp => ⟨fun hr => ?_, fun hr h0 => ?_, fun hr h0 h1 => ?_, fun hr h0 h1 h2 => ?_⟩⟩
  · have hx : tailXors s = some s.h := by simp [tailXors, xorTailByte, hr]
    rw [exec_tail hp hx, if_neg (by rw [hr]; decide)]
  · exact exec_tail_of_rem hp (by rw [hr]; decide) (by simp [tailXors, xorTailByte, hr, h0, shl, zext32])
  · exact exec_tail_of_rem hp (by rw [hr]; decide) (by simp [tailXors, xorTailByte, hr, h0, h1, shl, zext32])
  · exact exec_tail_of_rem hp (by rw [hr]; decide) (by simp [tailXors, xorTailByte, hr, h0, h1, h2, shl, zext32])

/-- Settles O35: the avalanche written in 32-bit operations. -/
theorem finalPublishesTheAvalanche : Obligations.FinalPublishesTheAvalanche := by
  refine ⟨rfl, fun s hp => ?_⟩
  rw [exec, execFinal, if_pos hp, avalanche, mul32_eq_mul]
  rfl

/-! ### The phase graph (R133) -/

/-- The seven edges of R133, each with the row that makes it. -/
inductive PhaseEdge (s t : State) : Instr → Prop
  | start (source : s.ph = .idle) (noErr : s.err = false) (target : t.ph = .init) : PhaseEdge s t .start
  | startRw (source : s.ph = .idle) (noErr : s.err = false) (target : t.ph = .filt) : PhaseEdge s t .startRw
  | filtExit (source : s.ph = .filt) (target : t.ph = .init) : PhaseEdge s t .filtExit
  | init (source : s.ph = .init) (target : t.ph = .body) : PhaseEdge s t .init
  | bodyExit (source : s.ph = .body) (target : t.ph = .tail) : PhaseEdge s t .bodyExit
  | tail (source : s.ph = .tail) (target : t.ph = .final) : PhaseEdge s t .tail
  | final (source : s.ph = .final) (target : t.ph = .idle) : PhaseEdge s t .final

theorem TransactionEffect.phaseEdge {i : Instr} {s t : State} (h : TransactionEffect i s t) (hne : t.ph ≠ s.ph) :
    PhaseEdge s t i := by
  obtain ⟨-, v, rfl⟩ | ⟨-, c, -, -, -, rfl⟩ | ⟨-, idle, accepted⟩ := h
  · exact absurd rfl hne
  · exact absurd rfl hne
  · obtain ⟨-, rfl⟩ | ⟨-, -, rfl⟩ | ⟨rfl, noErr, rfl⟩ | ⟨rfl, noErr, rfl⟩ | ⟨-, rfl⟩ | ⟨-, rfl⟩ | ⟨v, -, rfl⟩
      | ⟨b, -, -, rfl⟩ := accepted
    · exact absurd rfl hne
    · exact absurd rfl hne
    · exact .start idle noErr rfl
    · exact .startRw idle noErr rfl
    · exact absurd rfl hne
    · exact absurd rfl hne
    · exact absurd rfl hne
    · exact absurd rfl hne

theorem execEngine_phaseEdge {i : Instr} {s t : State} (hi : isTransaction i = false) (h : exec i s = .next t)
    (hne : t.ph ≠ s.ph) : PhaseEdge s t i := by
  cases i
  case idle => obtain ⟨-, rfl⟩ := execIdle_cases h; exact absurd rfl hne
  case filtByte =>
    obtain ⟨-, -, b, -, ⟨-, rfl⟩ | ⟨-, -, rfl⟩⟩ := execFiltByte_cases h
    · exact absurd rfl hne
    · exact absurd rfl hne
  case filtExit => obtain ⟨hp, -, rfl⟩ := execFiltExit_cases h; exact .filtExit hp rfl
  case init => obtain ⟨hp, rfl⟩ := execInit_cases h; exact .init hp rfl
  case bodyChunk => obtain ⟨-, -, k, -, rfl⟩ := execBodyChunk_cases h; exact absurd rfl hne
  case bodyExit => obtain ⟨hp, -, rfl⟩ := execBodyExit_cases h; exact .bodyExit hp rfl
  case tail => obtain ⟨hp, x, -, rfl⟩ := execTail_cases h; exact .tail hp rfl
  case final => obtain ⟨hp, rfl⟩ := execFinal_cases h; exact .final hp rfl
  all_goals cases hi

/-- Inversion of every row, as far as `ph` goes. -/
theorem exec_phaseEdge {i : Instr} {s t : State} (h : exec i s = .next t) (hne : t.ph ≠ s.ph) :
    PhaseEdge s t i := by
  cases hi : isTransaction i with
  | true => exact (execTransaction_cases hi h).phaseEdge hne
  | false => exact execEngine_phaseEdge hi h hne

/-- In IDLE the engine's turn answers the state it was given (R132; log 7). -/
theorem engineTurn_idle_eq {s : State} (idle : s.ph = .idle) : engineTurn s = .next s :=
  (engineTurn_idle idle).trans (if_pos idle)

/-- Settles O28: of the edges of the phase graph only the two STARTs' leave IDLE. -/
theorem idleDoesNothing : Obligations.IdleDoesNothing := by
  refine ⟨rfl, fun s idle => ⟨if_pos idle, engineTurn_idle_eq idle⟩, fun i s t h idle hne => ?_⟩
  cases exec_phaseEdge h (idle ▸ hne) with
  | start _ noErr => exact ⟨.inl rfl, noErr⟩
  | startRw _ noErr => exact ⟨.inr rfl, noErr⟩
  | filtExit source | init source | bodyExit source | tail source | final source =>
    exact absurd (idle.symm.trans source) Phase.noConfusion

/-- Settles O43: a row that changes `ph` makes one of the seven edges, and a turn other than reset runs one row, the
host's where it is a START and the engine's otherwise. -/
theorem phasesFollowTheFixedGraph : Obligations.PhasesFollowTheFixedGraph := by
  refine ⟨fun i s t h hne => ?_, fun turn s t h hne => ?_⟩
  · cases exec_phaseEdge h hne <;> simp [*]
  · obtain ⟨rfl, rfl⟩ | ⟨i, runs, hx⟩ := takeTurn_cases h
    · exact .inl ⟨rfl, rfl⟩
    · refine .inr ?_
      cases exec_phaseEdge hx hne with
      | start source noErr target =>
        obtain ⟨tw, rfl, hd⟩ := runs.host_of_isTransaction rfl
        exact .inl ⟨⟨source, noErr, tw, rfl, .inl hd⟩, .inl target⟩
      | startRw source noErr target =>
        obtain ⟨tw, rfl, hd⟩ := runs.host_of_isTransaction rfl
        exact .inl ⟨⟨source, noErr, tw, rfl, .inr hd⟩, .inr target⟩
      | filtExit source target => exact .inr ⟨runs.engine_of_not_isTransaction rfl, .inl ⟨source, target⟩⟩
      | init source target => exact .inr ⟨runs.engine_of_not_isTransaction rfl, .inr (.inl ⟨source, target⟩)⟩
      | bodyExit source target =>
        exact .inr ⟨runs.engine_of_not_isTransaction rfl, .inr (.inr (.inl ⟨source, target⟩))⟩
      | tail source target =>
        exact .inr ⟨runs.engine_of_not_isTransaction rfl, .inr (.inr (.inr (.inl ⟨source, target⟩)))⟩
      | final source target =>
        exact .inr ⟨runs.engine_of_not_isTransaction rfl, .inr (.inr (.inr (.inr ⟨source, target⟩)))⟩

/-! ### Which rule is enabled (R136) -/

/-- The condition under which each engine rule runs; a transaction is no rule. -/
def Enabled (s : State) : Instr → Prop
  | .idle => s.ph = .idle
  | .filtByte => s.ph = .filt ∧ s.j < s.keylen
  | .filtExit => s.ph = .filt ∧ s.j = s.keylen
  | .init => s.ph = .init
  | .bodyChunk => s.ph = .body ∧ 4 ≤ s.rem
  | .bodyExit => s.ph = .body ∧ s.rem < 4
  | .tail => s.ph = .tail
  | .final => s.ph = .final
  | _ => False

theorem exec_of_not_enabled {i : Instr} {s : State} (hi : isTransaction i = false) (h : ¬ Enabled s i) :
    exec i s = .fault .ruleNotEnabled := by
  cases i
  case idle | filtByte | filtExit | init | bodyChunk | bodyExit | tail | final => exact if_neg h
  all_goals cases hi

/-- An enabled rule is the one `ph` and the loop test select. -/
theorem Enabled.engineRule_eq {i : Instr} {s : State} (h : Enabled s i) : engineRule s = some i := by
  cases i
  case idle | init | tail | final => simp [engineRule, show s.ph = _ from h, phaseCode, decodePhase]
  case filtByte =>
    obtain ⟨hp, hj⟩ := h
    have notPast : ¬ s.keylen < s.j := BitVec.not_lt.mpr (BitVec.le_of_lt hj)
    simp [engineRule, hp, notPast, phaseCode, decodePhase, loopGoesOn, hj]
  case filtExit =>
    obtain ⟨hp, hj⟩ := h
    simp [engineRule, hp, hj, phaseCode, decodePhase, loopGoesOn]
  case bodyChunk =>
    obtain ⟨hp, (hr : 4#32 ≤ s.rem)⟩ := h
    simp [engineRule, hp, phaseCode, decodePhase, loopGoesOn, hr]
  case bodyExit =>
    obtain ⟨hp, hr⟩ := h
    have few : ¬ 4#32 ≤ s.rem := BitVec.not_le.mpr hr
    simp [engineRule, hp, phaseCode, decodePhase, loopGoesOn, few]
  all_goals cases h

/-- Settles O49: the engine's turn completes, so it runs the rule selected, and any other rule, were it enabled, would
be the one selected. -/
theorem exactlyOneEngineRuleIsEnabled : Obligations.ExactlyOneEngineRuleIsEnabled := by
  intro s hI _
  obtain ⟨t, ht⟩ := engineTurn_next hI
  obtain ⟨⟨⟩, -⟩ | ⟨i, selected | selected, hx⟩ := takeTurn_cases (turn := .engine) ht
  refine ⟨i, not_isTransaction_of_engineRule selected, ⟨t, hx⟩, ht.trans hx.symm, fun i' hi' hne => ?_⟩
  refine exec_of_not_enabled hi' fun enabled => hne ?_
  exact Option.some.inj (enabled.engineRule_eq.symm.trans selected)

end Sys2Proof.Machine

/-! Runs (spec/42_hash_engine.md section 4): what one engine step of a run keeps and counts down, and from it the three
statements about whole runs. -/

namespace Sys2Proof.Machine

/-! ### The invariant of each phase of a run (R41) -/

section
variable {s : State}

theorem phaseInv_filt_iff (hp : s.ph = .filt) :
    PhaseInv s ↔ s.rm = true ∧ s.flen ≤ s.j ∧ s.j ≤ s.keylen ∧ Memory.filled s.fbuf s.flen.toNat
      ∧ fbufSeq s = filterWs ((keySeq s).take s.j.toNat) := by
  simp only [PhaseInv, hp]

theorem phaseInv_init_iff (hp : s.ph = .init) : PhaseInv s ↔ Filtered s := by simp only [PhaseInv, hp]

theorem phaseInv_body_iff (hp : s.ph = .body) : PhaseInv s ↔ Reading s := by simp only [PhaseInv, hp]

theorem phaseInv_tail_iff (hp : s.ph = .tail) : PhaseInv s ↔ Reading s ∧ s.rem ≤ 3 := by simp only [PhaseInv, hp]

end

/-- Outside IDLE DONE is 0, so a state that differs in `ph` and in registers no other item reads needs its phase's
items only. -/
theorem MachineInv.of_running {s t : State} (hI : MachineInv s) (running : s.ph ≠ .idle)
    (frame : t = { s with ph := t.ph, h := t.h, len := t.len, i := t.i, rem := t.rem }) (phase : PhaseInv t) :
    MachineInv t := by
  rw [frame] at phase ⊢
  exact { hI with doneIdle := fun done => absurd (hI.doneIdle done) running, phase := phase }

/-- What is read stays the same whatever the hash state and the position. They are any words here, so that no proof
compares the arithmetic that gives them. -/
theorem Reading.at_position {s : State} (reading : Reading s) (h : Word) {i rem : Word} (aligned : i.toNat % 4 = 0)
    (position : i.toNat + rem.toNat = s.len.toNat) : Reading { s with h := h, i := i, rem := rem } :=
  ⟨aligned, position, reading.length, reading.withinKey, reading.filtered⟩

/-! ### The engine steps still to come (R135) -/

/-- The sequence a run with the latched flag hashes (R126). -/
def runSeq (s : State) : List Byte := if s.rm then filterWs (keySeq s) else keySeq s

/-- How many engine steps are left until `ph` is IDLE. -/
def stepsLeft (s : State) : Nat :=
  match s.ph with
  | .idle => 0
  | .filt => s.keylen.toNat - s.j.toNat + 1 + ((runSeq s).length / 4 + 4)
  | .init => (runSeq s).length / 4 + 4
  | .body => s.rem.toNat / 4 + 3
  | .tail => 2
  | .final => 1

/-- The phase of a run that hashes `len` bytes, from the number of engine steps left. -/
def phaseWithLeft (len : Nat) : Nat → Phase
  | 0 => .idle
  | 1 => .final
  | 2 => .tail
  | k + 3 => if k ≤ len / 4 then .body else if k = len / 4 + 1 then .init else .filt

theorem Filtered.length_runSeq {s : State} (h : Filtered s) : (runSeq s).length = (srcLen s).toNat := by
  rw [← length_srcSeq]
  unfold srcSeq runSeq
  split
  · next hr => rw [(h hr).2]
  · rfl

/-- The number of steps left tells the phase. -/
theorem MachineInv.ph_eq {s : State} (hI : MachineInv s) : s.ph = phaseWithLeft (runSeq s).length (stepsLeft s) := by
  unfold stepsLeft
  match hp : s.ph with
  | .idle | .tail | .final => rfl
  | .filt =>
    have hleft : s.keylen.toNat - s.j.toNat + 1 + ((runSeq s).length / 4 + 4)
      = s.keylen.toNat - s.j.toNat + (runSeq s).length / 4 + 2 + 3 := by omega
    simp only [hleft]
    rw [phaseWithLeft, if_neg (by omega), if_neg (by omega)]
  | .init =>
    simp only
    rw [phaseWithLeft, if_neg (by omega), if_pos rfl]
  | .body =>
    have hreading := (phaseInv_body_iff hp).mp hI.phase
    have hpos := hreading.position
    rw [hreading.length, ← hreading.filtered.length_runSeq] at hpos
    simp only
    rw [phaseWithLeft, if_pos (by omega)]

/-! ### One engine step of a run -/

/-- What an engine step from `s` to `t` keeps in a run, and that it brings the run one step nearer its end. -/
structure RunStep (s t : State) : Prop where
  inv : MachineInv t
  pending : pendingHash t = pendingHash s
  countdown : stepsLeft s = stepsLeft t + 1
  published : t.ph = .idle → t.done = true

namespace MachineInv

variable {s t : State} (hI : MachineInv s)
include hI

/-- A byte read of KEY is the Key's. -/
theorem keySeq_of_readByte {b : Byte} {a : Nat} (hb : readByte .key a s = some b) : (keySeq s)[a]? = some b := by
  obtain ⟨ha, hread⟩ := readByte_eq_some.mp hb
  exact (Memory.filled_read hI.keyFilled ha).symm.trans hread

/-- filt.byte, whatever the byte: FBUF grows by what the filter keeps of it. -/
theorem filtByte_appends (h : exec .filtByte s = .next t) :
    ∃ b fbuf flen, t = { s with fbuf := fbuf, flen := flen, j := s.j + 1 } ∧ (keySeq s)[s.j.toNat]? = some b
      ∧ Memory.bytes fbuf flen.toNat = fbufSeq s ++ filterWs [b] ∧ flen.toNat ≤ s.flen.toNat + 1
      ∧ (Memory.filled s.fbuf s.flen.toNat → Memory.filled fbuf flen.toNat)
      ∧ Memory.wf fbuf ∧ Memory.below fbuf s.config.keyCap.toNat := by
  obtain ⟨-, -, b, hb, ⟨ws, rfl⟩ | ⟨keep, room, rfl⟩⟩ := execFiltByte_cases h
  · refine ⟨b, s.fbuf, s.flen, rfl, hI.keySeq_of_readByte hb, ?_, Nat.le_succ _, id, hI.fbufCanonical, hI.fbufBelow⟩
    rw [filterWs_singleton, if_pos ws, List.append_nil]
    rfl
  · have hflen : (s.flen + 1).toNat = s.flen.toNat + 1 := toNat_succ_of_lt room
    refine ⟨b, _, _, rfl, hI.keySeq_of_readByte hb, ?_, hflen.le, fun filled => ?_,
      Memory.wf_write _ _ b hI.fbufCanonical, Memory.below_write _ _ _ b hI.fbufBelow room⟩
    · rw [hflen, Memory.bytes_write_end, filterWs_singleton, if_neg (Bool.eq_false_iff.mp keep)]
      rfl
    · rw [hflen]
      exact Memory.filled_write_end _ _ b filled

theorem runStep_filtByte (h : exec .filtByte s = .next t) : RunStep s t := by
  obtain ⟨hp, hj, -⟩ := execFiltByte_cases h
  obtain ⟨b, fbuf, flen, rfl, hbyte, hbytes, hgrows, hfill, hwf, hbelow⟩ := hI.filtByte_appends h
  obtain ⟨hrm, hflen, -, hfilled, hexamined⟩ := (phaseInv_filt_iff hp).mp hI.phase
  have running : s.ph ≠ .idle := hp ▸ Phase.noConfusion
  have hj1 : (s.j + 1).toNat = s.j.toNat + 1 := toNat_succ_of_lt hj
  rw [BitVec.lt_def] at hj
  rw [BitVec.le_def] at hflen
  refine ⟨{ hI with
    fbufCanonical := hwf
    fbufBelow := hbelow
    doneIdle := fun done => absurd (hI.doneIdle done) running
    phase := (phaseInv_filt_iff (by exact hp)).mpr ?_ }, ?_, ?_, fun h => absurd h running⟩
  · have htake : (keySeq s).take (s.j.toNat + 1) = (keySeq s).take s.j.toNat ++ [b] := by
      rw [List.take_add_one, hbyte]
      rfl
    simp only [BitVec.le_def, hj1]
    refine ⟨hrm, by omega, by omega, hfill hfilled, ?_⟩
    calc Memory.bytes fbuf flen.toNat
      _ = filterWs ((keySeq s).take s.j.toNat) ++ filterWs [b] := by rw [hbytes, hexamined]
      _ = filterWs ((keySeq s).take (s.j.toNat + 1)) := by rw [htake, filterWs_append]
  · have hrest : Memory.bytes fbuf flen.toNat ++ filterWs ((keySeq s).drop (s.j.toNat + 1))
        = fbufSeq s ++ filterWs ((keySeq s).drop s.j.toNat) := by
      rw [hbytes, List.append_assoc, ← filterWs_append, drop_eq_cons_of_getElem? hbyte]
      rfl
    simp only [pendingHash, hp, hj1]
    exact congrArg (murmur2 · s.seed) hrest
  · simp only [stepsLeft, hp, hj1]
    change _ = s.keylen.toNat - (s.j.toNat + 1) + 1 + ((runSeq s).length / 4 + 4) + 1
    omega

theorem runStep_filtExit (h : exec .filtExit s = .next t) : RunStep s t := by
  obtain ⟨hp, hj, rfl⟩ := execFiltExit_cases h
  obtain ⟨hrm, -, -, hfilled, -⟩ := (phaseInv_filt_iff hp).mp hI.phase
  have filtered : Filtered s := fun _ => ⟨hfilled, hI.fbufSeq_eq_filterWs_keySeq hp hj⟩
  refine ⟨hI.of_running (hp ▸ Phase.noConfusion) rfl filtered, ?_, ?_, Phase.noConfusion⟩
  · have hend : (keySeq s).drop s.j.toNat = [] := List.drop_eq_nil_of_le (by rw [length_keySeq, hj])
    simp only [pendingHash, hp, hend, filterWs_nil, List.append_nil]
    exact congrArg (murmur2 · s.seed) (if_pos hrm)
  · simp only [stepsLeft, hp, hj, Nat.sub_self]
    exact Nat.add_comm ..

theorem runStep_init (h : exec .init s = .next t) : RunStep s t := by
  obtain ⟨hp, rfl⟩ := execInit_cases h
  have filtered := (phaseInv_init_iff hp).mp hI.phase
  have reading : Reading { s with len := srcLen s, h := s.seed ^^^ srcLen s, i := 0, rem := srcLen s, ph := .body } :=
    ⟨rfl, Nat.zero_add _, rfl, srcLen_le filtered, filtered⟩
  refine ⟨hI.of_running (hp ▸ Phase.noConfusion) rfl reading, ?_, ?_, Phase.noConfusion⟩
  · have hlen : BitVec.ofNat 32 (srcSeq s).length = srcLen s := by
      rw [length_srcSeq, BitVec.ofNat_toNat, BitVec.setWidth_eq]
    simp only [pendingHash, hp]
    rw [murmur2_eq_mixRest, hlen]
    rfl
  · simp only [stepsLeft, hp, filtered.length_runSeq]

theorem runStep_bodyChunk (h : exec .bodyChunk s = .next t) : RunStep s t := by
  obtain ⟨hp, hr, k, hk, rfl⟩ := execBodyChunk_cases h
  obtain ⟨b0, b1, b2, b3, hchunk, hdrop⟩ := body_bytes hI hp hr
  obtain rfl : k = wordOfBytes b0 b1 b2 b3 := Option.some.inj (hk.symm.trans hchunk)
  have reading := (phaseInv_body_iff hp).mp hI.phase
  have haligned := reading.aligned
  have hpos := reading.position
  have running : s.ph ≠ .idle := hp ▸ Phase.noConfusion
  have hrem : (s.rem - 4).toNat = s.rem.toNat - 4 := BitVec.toNat_sub_of_le hr
  have hr4 : 4 ≤ s.rem.toNat := hr
  have hi : (s.i + 4).toNat = s.i.toNat + 4 := by
    have hfour : (4 : Word).toNat = 4 := rfl
    have hlen := s.len.isLt
    rw [BitVec.toNat_add_of_lt (by omega), hfour]
  have advanced := reading.at_position (bodyStep s.h (wordOfBytes b0 b1 b2 b3)) (i := s.i + 4) (rem := s.rem - 4)
    (by omega) (by omega)
  refine ⟨hI.of_running running rfl ((phaseInv_body_iff (by exact hp)).mpr advanced), ?_, ?_,
    fun h => absurd h running⟩
  · simp only [pendingHash, hp, hi]
    rw [hdrop, mixRest_chunk]
    rfl
  · simp only [stepsLeft, hp, hrem]
    omega

theorem runStep_bodyExit (h : exec .bodyExit s = .next t) : RunStep s t := by
  obtain ⟨hp, hr, rfl⟩ := execBodyExit_cases h
  have reading := (phaseInv_body_iff hp).mp hI.phase
  have hr4 : s.rem.toNat < 4 := hr
  refine ⟨hI.of_running (hp ▸ Phase.noConfusion) rfl ⟨{ reading with }, Nat.le_of_lt_succ hr4⟩, ?_, ?_,
    Phase.noConfusion⟩
  · have hshort : ((srcSeq s).drop s.i.toNat).length < 4 := by
      have hpos := reading.position
      rw [reading.length] at hpos
      rw [List.length_drop, length_srcSeq]
      omega
    simp only [pendingHash, hp, mixRest_of_short _ _ hshort]
    rfl
  · simp only [stepsLeft, hp]
    omega

theorem runStep_tail (h : exec .tail s = .next t) : RunStep s t := by
  obtain ⟨hp, x, hx, rfl⟩ := execTail_cases h
  obtain ⟨y, hy, hmix⟩ := tail_bytes hI hp
  obtain rfl : x = y := Option.some.inj (hx.symm.trans hy)
  obtain ⟨-, hrem⟩ := (phaseInv_tail_iff hp).mp hI.phase
  refine ⟨hI.of_running (hp ▸ Phase.noConfusion) rfl hrem, ?_, ?_, Phase.noConfusion⟩
  · simp only [pendingHash, hp, hmix]
  · simp only [stepsLeft, hp]

theorem runStep_final (h : exec .final s = .next t) : RunStep s t := by
  obtain ⟨hp, rfl⟩ := execFinal_cases h
  refine ⟨{ hI with doneIdle := fun _ => rfl, phase := trivial }, ?_, ?_, fun _ => rfl⟩
  · simp only [pendingHash, hp]
  · simp only [stepsLeft, hp]

/-- In a run every engine turn is such a step, whichever rule it runs. -/
theorem runStep_engineTurn (running : s.ph ≠ .idle) (h : engineTurn s = .next t) : RunStep s t := by
  obtain h | h | h | h | h | h | h | h := engineTurn_cases h
  · exact absurd (execIdle_cases h).1 running
  · exact hI.runStep_filtByte h
  · exact hI.runStep_filtExit h
  · exact hI.runStep_init h
  · exact hI.runStep_bodyChunk h
  · exact hI.runStep_bodyExit h
  · exact hI.runStep_tail h
  · exact hI.runStep_final h

end MachineInv

/-! ### What no engine turn writes -/

/-- The inputs of a run, and ERR. -/
structure SameInputs (s t : State) : Prop where
  key : t.key = s.key
  keylen : t.keylen = s.keylen
  seed : t.seed = s.seed
  rm : t.rm = s.rm
  err : t.err = s.err

namespace SameInputs

variable {s t u : State}

theorem refl (s : State) : SameInputs s s := ⟨rfl, rfl, rfl, rfl, rfl⟩

theorem trans (h : SameInputs s t) (h' : SameInputs t u) : SameInputs s u :=
  ⟨h'.key.trans h.key, h'.keylen.trans h.keylen, h'.seed.trans h.seed, h'.rm.trans h.rm, h'.err.trans h.err⟩

theorem keySeq_eq (h : SameInputs s t) : keySeq t = keySeq s := by rw [keySeq, keySeq, h.key, h.keylen]

theorem runSeq_eq (h : SameInputs s t) : runSeq t = runSeq s := by rw [runSeq, runSeq, h.rm, h.keySeq_eq]

end SameInputs

theorem sameInputs_of_engineTurn {s t : State} (h : engineTurn s = .next t) : SameInputs s t := by
  obtain ⟨⟨⟩, -⟩ | ⟨i, enabled | enabled, hx⟩ := takeTurn_cases (turn := .engine) h
  rw [execEngine_frame (not_isTransaction_of_engineRule enabled) hx]
  exact ⟨rfl, rfl, rfl, rfl, rfl⟩

/-! ### A run is not disturbed (R41, R134, R214) -/

theorem RunOf.of_engineTurn {K : List Byte} {sd : Word} {f : Bool} {s t : State} (hI : MachineInv s)
    (hrun : RunOf K sd f s) (h : engineTurn s = .next t) : RunOf K sd f t := by
  obtain ⟨running, hkey, hseed, hrm, hpending⟩ | ⟨idle, published⟩ := hrun
  · have hstep := hI.runStep_engineTurn running h
    have same := sameInputs_of_engineTurn h
    rw [← hstep.pending] at hpending
    by_cases ended : t.ph = .idle
    · have hhash : pendingHash t = t.hash := by simp only [pendingHash, ended]
      exact .inr ⟨ended, hstep.published ended, hhash ▸ hpending⟩
    · exact .inl ⟨ended, same.keySeq_eq.trans hkey, same.seed.trans hseed, same.rm.trans hrm, hpending⟩
  · rw [engineTurn_idle_eq idle] at h
    cases h
    exact .inr ⟨idle, published⟩

/-- A transaction that begins no run leaves `ph`, DONE and HASH as they are (R59, R163 to R180). -/
theorem execTransaction_published {i : Instr} {s t : State} (hi : isTransaction i = true) (h : exec i s = .next t)
    (notStart : ¬ ((i = .start ∨ i = .startRw) ∧ s.ph = .idle ∧ s.err = false)) :
    t.ph = s.ph ∧ t.done = s.done ∧ t.hash = s.hash := by
  have effect := exec_dataEffect h
  have notFinal : i ≠ .final := by
    rintro rfl
    cases hi
  refine ⟨?_, ?_, ?_⟩
  · by_contra hne
    cases exec_phaseEdge h hne with
    | start idle noErr => exact notStart ⟨.inl rfl, idle, noErr⟩
    | startRw idle noErr => exact notStart ⟨.inr rfl, idle, noErr⟩
    | filtExit | init | bodyExit | tail | final => cases hi
  · obtain same | ⟨-, row, -⟩ | ⟨-, start⟩ := effect.done_cases
    · exact same
    · exact absurd row notFinal
    · exact absurd start notStart
  · by_contra hne
    exact notFinal (effect.final_of_hash_ne hne).1

theorem RunOf.of_transaction {K : List Byte} {sd : Word} {f : Bool} {i : Instr} {s t : State} (hrun : RunOf K sd f s)
    (hi : isTransaction i = true) (h : exec i s = .next t)
    (notStart : ¬ ((i = .start ∨ i = .startRw) ∧ s.ph = .idle ∧ s.err = false)) : RunOf K sd f t := by
  obtain ⟨running, inputs⟩ | ⟨idle, hdone, hhash⟩ := hrun
  · rw [hostLeavesARunAlone i s t hi running h]
    exact .inl ⟨running, inputs⟩
  · obtain ⟨eph, edone, ehash⟩ := execTransaction_published hi h notStart
    exact .inr ⟨eph.trans idle, edone.trans hdone, ehash.trans hhash⟩

/-- Settles O52: the host's turn is a transaction that begins no run, the engine's a step of the run or, in IDLE,
none. -/
theorem nothingDisturbsARun : Obligations.NothingDisturbsARun := by
  intro K sd f s t turn hI hrun notReset notBegin h
  cases turn with
  | host tw =>
    exact hrun.of_transaction (isTransaction_decodeTw tw) h
      fun ⟨row, idle, noErr⟩ => notBegin ⟨idle, noErr, tw, rfl, row⟩
  | engine => exact hrun.of_engineTurn hI h
  | reset => exact absurd rfl notReset

/-! ### The engine alone, turn after turn -/

/-- What `n` engine turns from `s` to `t` keep, and how far they bring the run. -/
structure EngineRun (n : Nat) (s t : State) : Prop where
  inv : MachineInv t
  inputs : SameInputs s t
  countdown : stepsLeft t = stepsLeft s - n
  keepsRun : ∀ {K sd f}, RunOf K sd f s → RunOf K sd f t

theorem engineRun_one {s t : State} (hI : MachineInv s) (h : engineTurn s = .next t) : EngineRun 1 s t := by
  by_cases idle : s.ph = .idle
  · rw [engineTurn_idle_eq idle] at h
    cases h
    exact ⟨hI, .refl s, by simp only [stepsLeft, idle], id⟩
  · have hstep := hI.runStep_engineTurn idle h
    exact ⟨hstep.inv, sameInputs_of_engineTurn h, by rw [hstep.countdown]; rfl, fun hrun => hrun.of_engineTurn hI h⟩

theorem EngineRun.trans {m n : Nat} {s t u : State} (h : EngineRun m s t) (h' : EngineRun n t u) :
    EngineRun (m + n) s u :=
  ⟨h'.inv, h.inputs.trans h'.inputs, by rw [h'.countdown, h.countdown, Nat.sub_sub],
    fun hrun => h'.keepsRun (h.keepsRun hrun)⟩

/-- From a state that meets the invariant any number of engine turns completes. -/
theorem takeTurns_engine {s : State} (n : Nat) (hI : MachineInv s) :
    ∃ t, takeTurns (List.replicate n .engine) s = .next t ∧ EngineRun n s t := by
  induction n generalizing s with
  | zero => exact ⟨s, rfl, hI, .refl s, rfl, id⟩
  | succ n ih =>
    obtain ⟨u, hu⟩ := engineTurn_next hI
    have first := engineRun_one hI hu
    obtain ⟨t, ht, rest⟩ := ih first.inv
    refine ⟨t, ?_, Nat.add_comm 1 n ▸ first.trans rest⟩
    exact (takeTurns_cons (u := .engine) hu).trans ht

theorem stepsLeft_eq_zero_iff {s : State} : stepsLeft s = 0 ↔ s.ph = .idle := by
  unfold stepsLeft
  split <;> simp [*]

/-! ### The state an accepted START answers (R164, R165) -/

/-- The phase an accepted START leads to. -/
def firstPhase (rw : Bool) : Phase := if rw then .filt else .init

theorem exec_accepted_start {s : State} (rw : Bool) (idle : s.ph = .idle) (noErr : s.err = false) :
    exec (if rw then .startRw else .start) s = .next (beginRun rw (firstPhase rw) s) := by
  cases rw with
  | false => simp [exec_start, whenIdle_idle idle, noErr, firstPhase]
  | true => simp [exec_startRw, whenIdle_idle idle, noErr, firstPhase]

theorem runOf_beginRun (s : State) (rw : Bool) :
    RunOf (keySeq s) s.seed rw (beginRun rw (firstPhase rw) s) := by
  cases rw with
  | false => exact runOf_beginRun_init s
  | true => exact runOf_beginRun_filt s

theorem MachineInv.beginRun {s : State} (hI : MachineInv s) (rw : Bool) :
    MachineInv (beginRun rw (firstPhase rw) s) := by
  refine { hI with doneIdle := Bool.noConfusion, phase := ?_ }
  cases rw with
  | false => exact Bool.noConfusion
  | true => exact ⟨rfl, BitVec.le_refl _, Nat.zero_le _, Memory.filled_zero _, rfl⟩

/-- The sequence a START with flag `rw` hashes has the length R135 counts with. -/
theorem stepsLeft_beginRun (s : State) (rw : Bool) :
    stepsLeft (beginRun rw (firstPhase rw) s)
      = runSteps s.keylen.toNat (if rw then filterWs (keySeq s) else keySeq s).length rw := by
  cases rw with
  | false =>
    change (keySeq s).length / 4 + 4 = 0 + 1 + (keySeq s).length / 4 + 1 + 1 + 1
    omega
  | true =>
    change s.keylen.toNat - 0 + 1 + ((filterWs (keySeq s)).length / 4 + 4)
      = s.keylen.toNat + 1 + 1 + (filterWs (keySeq s)).length / 4 + 1 + 1 + 1
    omega

/-- Settles O53: the state a START answers has exactly the steps of R135 left, each engine turn takes one, and with none
left `ph` is IDLE and the run's hash published. -/
theorem runCompletesWithTheHash : Obligations.RunCompletesWithTheHash := by
  intro s rw hI idle noErr
  have hleft := stepsLeft_beginRun s rw
  obtain ⟨u, hu, hrun⟩ := takeTurns_engine
    (runSteps s.keylen.toNat (if rw then filterWs (keySeq s) else keySeq s).length rw) (hI.beginRun rw)
  have ended : u.ph = .idle := stepsLeft_eq_zero_iff.mp (by rw [hrun.countdown, hleft, Nat.sub_self])
  obtain ⟨running, -⟩ | ⟨-, hdone, hhash⟩ := hrun.keepsRun (runOf_beginRun s rw)
  · exact absurd ended running
  refine ⟨_, u, exec_accepted_start rw idle noErr, hu, ended, hdone, hhash, hrun.inputs.key, hrun.inputs.keylen,
    hrun.inputs.seed, hrun.inputs.err.trans noErr, fun m hm => ?_⟩
  obtain ⟨v, hv, hpart⟩ := takeTurns_engine m (hI.beginRun rw)
  refine ⟨v, hv, fun hidle => ?_⟩
  have hzero := stepsLeft_eq_zero_iff.mpr hidle
  rw [hpart.countdown, hleft] at hzero
  omega

/-- Settles O55: both runs hash the same sequence and have the same number of steps left, which tells the phase; where
that is IDLE both have published the hash of the same inputs. -/
theorem hashDependsOnItsInputsOnly : Obligations.HashDependsOnItsInputsOnly := by
  intro s s' rw t t' u u' n hI hI' idle idle' noErr noErr' hkey hseed ht ht' hu hu'
  rw [exec_accepted_start rw idle noErr] at ht
  rw [exec_accepted_start rw idle' noErr'] at ht'
  cases ht
  cases ht'
  obtain ⟨v, hv, hrun⟩ := takeTurns_engine n (hI.beginRun rw)
  obtain ⟨v', hv', hrun'⟩ := takeTurns_engine n (hI'.beginRun rw)
  cases hu.symm.trans hv
  cases hu'.symm.trans hv'
  have hkeylen : s.keylen.toNat = s'.keylen.toNat := by rw [← length_keySeq, hkey, length_keySeq]
  have hleft : stepsLeft u = stepsLeft u' := by
    rw [hrun.countdown, hrun'.countdown, stepsLeft_beginRun, stepsLeft_beginRun, hkey, hkeylen]
  have hseq : runSeq u = runSeq u' := by
    rw [hrun.inputs.runSeq_eq, hrun'.inputs.runSeq_eq, runSeq, runSeq]
    exact congrArg (fun K => if rw then filterWs K else K) hkey
  have hph : u.ph = u'.ph := by rw [hrun.inv.ph_eq, hrun'.inv.ph_eq, hseq, hleft]
  refine ⟨hph, fun ended => ?_⟩
  obtain ⟨running, -⟩ | ⟨-, -, hhash⟩ := hrun.keepsRun (runOf_beginRun s rw)
  · exact absurd ended running
  obtain ⟨running, -⟩ | ⟨-, -, hhash'⟩ := hrun'.keepsRun (runOf_beginRun s' rw)
  · exact absurd (hph ▸ ended) running
  rw [hhash, hhash', hkey, hseed]

end Sys2Proof.Machine

/-! The hash function (spec/42_hash_engine.md section 5): R138, R140 and R141. -/

namespace Sys2Proof.Machine

theorem murmur2_nil (seed : Word) : murmur2 [] seed = avalanche seed := by
  have hlength : seed ^^^ BitVec.ofNat 32 ([] : List Byte).length = seed := BitVec.xor_zero
  rw [murmur2_eq_mixRest, hlength]
  rfl

theorem filterWs_of_no_ws {key : List Byte} (h : ∀ b ∈ key, isWs b = false) : filterWs key = key :=
  (filterWs_sublist key).eq_of_length (length_filterWs_eq_iff.mpr h)

/-! ### Injectivity in the seed (R140) -/

theorem xor_injective (z : Word) : Function.Injective (· ^^^ z) :=
  Function.LeftInverse.injective (g := (· ^^^ z)) fun x => by
    simp only [BitVec.xor_assoc, BitVec.xor_self, BitVec.xor_zero]

theorem bodyStep_injective (w : Word) : Function.Injective (bodyStep · w) :=
  (xor_injective (mixK w)).comp mul32_mixMultiplier_injective

/-- The tail xors into the hash state words that do not depend on it, and multiplies by `M`. -/
theorem tailMix_injective (l : List Byte) : Function.Injective (tailMix · l) := by
  match l with
  | [] => exact Function.injective_id
  | [_] => exact mul32_mixMultiplier_injective.comp (xor_injective _)
  | [_, _] => exact mul32_mixMultiplier_injective.comp ((xor_injective _).comp (xor_injective _))
  | _ :: _ :: _ :: _ =>
    exact mul32_mixMultiplier_injective.comp ((xor_injective _).comp ((xor_injective _).comp (xor_injective _)))

/-- Chunk after chunk, then the tail: no step loses the hash state. -/
theorem mixRest_injective (l : List Byte) : Function.Injective (mixRest · l) := by
  match l with
  | b0 :: b1 :: b2 :: b3 :: rest =>
    exact (mixRest_injective rest).comp (bodyStep_injective (wordOfBytes b0 b1 b2 b3))
  | [] | [_] | [_, _] | [_, _, _] => exact tailMix_injective _

theorem murmur2_injective (l : List Byte) : Function.Injective (murmur2 l) := by
  intro x y h
  rw [murmur2_eq_mixRest, murmur2_eq_mixRest] at h
  exact xor_injective _ (mixRest_injective l (avalanche_injective h))

/-- Settles O60: one lemma about Murmur2 or the filter for each clause. -/
theorem hashProperties : Obligations.HashProperties := by
  refine ⟨fun seed rw => ?_, fun key seed => rfl, fun key seed h => ?_, fun key rw x y h => murmur2_injective _ h⟩
  · cases rw <;> exact murmur2_nil seed
  · exact congrArg (murmur2 · seed) (filterWs_of_no_ws h)

end Sys2Proof.Machine

/-! The host's transactions (spec/43_host_commands.md sections 2 to 5): what each write does in IDLE and during a run,
what each read replies, and that every one keeps the invariant. -/

namespace Sys2Proof.Machine

/-! ### Every turn keeps the invariant (R41) -/

theorem phaseInv_of_idle {s : State} (idle : s.ph = .idle) : PhaseInv s := by simp only [PhaseInv, idle]

theorem MachineInv.with_reply {s : State} (hI : MachineInv s) (r : Option Word) :
    MachineInv { s with reply := r } :=
  { hI with phase := hI.phase.congr rfl rfl rfl rfl rfl rfl rfl rfl rfl rfl }

/-- Raising one of the five causes keeps ERR and ERRCODE in step (item 3 of R41). -/
theorem MachineInv.withError {c : ErrCode} {s : State} (hI : MachineInv s) (hc : c ≠ .none) :
    MachineInv (withError c s) := by
  refine { hI with
    errIff := ⟨Bool.noConfusion, fun hnone => ?_⟩
    phase := hI.phase.congr rfl rfl rfl rfl rfl rfl rfl rfl rfl rfl }
  change (if s.err then s.errCode else c) = .none at hnone
  split at hnone
  · next he => exact he.symm.trans (hI.errIff.mpr hnone)
  · exact absurd hnone hc

/-- A push writes at KEYLEN, below KEY_CAP, so the Key stays filled and within its buffer. -/
theorem MachineInv.of_pushed {s : State} (hI : MachineInv s) (idle : s.ph = .idle) (b : Byte)
    (room : s.keylen.toNat < s.config.keyCap.toNat) :
    MachineInv { s with key := Memory.write s.key s.keylen.toNat b, keylen := s.keylen + 1 } := by
  have hlen : (s.keylen + 1).toNat = s.keylen.toNat + 1 := toNat_succ_of_lt room
  refine { hI with
    keyCanonical := Memory.wf_write _ _ b hI.keyCanonical
    keyBelow := Memory.below_write _ _ _ b hI.keyBelow room
    keylenWithin := ?_
    keyFilled := ?_
    phase := phaseInv_of_idle idle }
  · rw [BitVec.le_def, hlen]
    exact room
  · rw [hlen]
    exact Memory.filled_write_end _ _ b hI.keyFilled

theorem MachineInv.of_accepted {i : Instr} {s t : State} (hI : MachineInv s) (idle : s.ph = .idle)
    (h : Accepted i s t) : MachineInv t := by
  obtain ⟨-, rfl⟩ | ⟨-, -, rfl⟩ | ⟨-, -, rfl⟩ | ⟨-, -, rfl⟩ | ⟨-, rfl⟩ | ⟨-, rfl⟩ | ⟨v, -, rfl⟩
    | ⟨b, -, room, rfl⟩ := h
  · exact hI
  · exact hI
  · exact hI.beginRun false
  · exact hI.beginRun true
  · exact { hI with
      keylenWithin := Nat.zero_le _, keyFilled := Memory.filled_zero _, phase := phaseInv_of_idle idle }
  · exact { hI with errIff := ⟨fun _ => rfl, fun _ => rfl⟩, phase := phaseInv_of_idle idle }
  · exact { hI with phase := phaseInv_of_idle idle }
  · exact hI.of_pushed idle b room

theorem MachineInv.of_transaction {i : Instr} {s t : State} (hI : MachineInv s) (hi : isTransaction i = true)
    (h : exec i s = .next t) : MachineInv t := by
  obtain ⟨-, v, rfl⟩ | ⟨-, c, hc, -, -, rfl⟩ | ⟨-, idle, accepted⟩ := execTransaction_cases hi h
  · exact hI.with_reply (some v)
  · exact hI.withError hc
  · exact hI.of_accepted idle accepted

theorem MachineInv.of_engineTurn {s t : State} (hI : MachineInv s) (h : engineTurn s = .next t) : MachineInv t :=
  (engineRun_one hI h).inv

/-- The reset state holds nothing, so it meets the invariant with any capacity. -/
theorem MachineInv.resetEvent (s : State) : MachineInv (resetEvent s) where
  keyCanonical := .nil
  fbufCanonical := .nil
  keyBelow := List.forall_mem_nil _
  fbufBelow := List.forall_mem_nil _
  keylenWithin := Nat.zero_le _
  keyFilled := Memory.filled_zero _
  doneIdle := Bool.noConfusion
  errIff := ⟨fun _ => rfl, fun _ => rfl⟩
  phase := trivial

theorem MachineInv.of_takeTurn {turn : Turn} {s t : State} (hI : MachineInv s) (h : takeTurn turn s = .next t) :
    MachineInv t := by
  cases turn with
  | host tw => exact hI.of_transaction (isTransaction_decodeTw tw) h
  | engine => exact hI.of_engineTurn h
  | reset => cases h; exact .resetEvent s

/-! ### Reads (R161, R170 to R175) -/

/-- A read of a register replies its read value, whatever the data field (R161). -/
theorem exec_read (reg : BitVec 4) (w : Word) (s : State) :
    exec (decodeTw (makeTw false reg w)) s = .next (replyWith (readReg reg s) s) := by
  rw [decodeTw_read]
  rcases reg_cases reg with rfl | rfl | rfl | rfl | rfl | rfl | rfl | rfl | high
  case inr.inr.inr.inr.inr.inr.inr.inr =>
    obtain ⟨-, h1, h2, -, h4, h5, h6, -⟩ := reg_high_ne high
    have hzero : readReg reg s = 0 := by simp only [readReg, h1, h2, h4, h5, h6, if_false]
    rw [decodeRead_high w high, hzero]
    rfl
  all_goals rfl

/-- Settles O27: `exec_read` with the reply written out. -/
theorem everyReadLeavesTheStateAlone : Obligations.EveryReadLeavesTheStateAlone := exec_read

/-- The bits of STATUS (R170): a finite check, over the values of its four parts. -/
theorem statusWord_bits (s : State) :
    (statusWord s).getLsbD 0 = busy s ∧ (statusWord s).getLsbD 1 = s.done ∧ (statusWord s).getLsbD 2 = s.err
      ∧ (statusWord s).getLsbD 3 = false ∧ (statusWord s).extractLsb' 4 4 = errNumber s.errCode
      ∧ (statusWord s).extractLsb' 8 24 = 0 := by
  unfold statusWord
  cases s.errCode <;> cases s.err <;> cases s.done <;> cases busy s <;> decide

/-! ### Reads, row by row (R170 to R175) -/

/-- Settles O24: the word replied is STATUS, and its bits are the flags. -/
theorem readStatusRepliesTheFlags : Obligations.ReadStatusRepliesTheFlags :=
  ⟨⟨rfl, rfl, rfl, rfl, rfl, rfl⟩, fun w s => ⟨decodeTw_read 1 w, statusWord s, rfl, statusWord_bits s⟩⟩

/-- Settles O25: each of the four rows replies the read value of its register. -/
theorem readsReplyTheirRegister : Obligations.ReadsReplyTheirRegister := fun w _ =>
  ⟨decodeTw_read 2 w, decodeTw_read 4 w, decodeTw_read 5 w, decodeTw_read 6 w, rfl, rfl, rfl, rfl⟩

theorem readReg_eq_zero {reg : BitVec 4} (h : reg = 0 ∨ reg = 3 ∨ 7 ≤ reg) (s : State) : readReg reg s = 0 := by
  have unread : reg ≠ 1 ∧ reg ≠ 2 ∧ reg ≠ 4 ∧ reg ≠ 5 ∧ reg ≠ 6 := by
    revert reg
    decide
  obtain ⟨h1, h2, h4, h5, h6⟩ := unread
  simp only [readReg, h1, h2, h4, h5, h6, if_false]

/-- Settles O26: the rows reply 0 by definition, and the registers' read value is 0. -/
theorem readsOfNothingReplyZero : Obligations.ReadsOfNothingReplyZero := by
  refine fun w reg s => ⟨rfl, rfl, rfl, fun _ => rfl, fun h => ?_⟩
  rw [exec_read, readReg_eq_zero h]
  rfl

/-! ### Writes (R162) -/

/-- The registers no write is accepted at: STATUS and the ones from KEYLEN up (R176). -/
theorem exec_write_refused {reg : BitVec 4} (h : reg = 1 ∨ 4 ≤ reg) (w : Word) (s : State) :
    exec (decodeTw (makeTw true reg w)) s = .next (withError .badAccess s) := by
  rw [← refuseAccess_eq, decodeTw_write]
  rcases reg_cases reg with rfl | rfl | rfl | rfl | rfl | rfl | rfl | rfl | high
  case inl | inr.inr.inl | inr.inr.inr.inl => exact absurd h (by decide)
  case inr.inr.inr.inr.inr.inr.inr.inr => rw [decodeWrite_high w high]; rfl
  all_goals rfl

/-- Settles O21: the six rows are one refusal. -/
theorem badAccessIsRefusedInEveryPhase : Obligations.BadAccessIsRefusedInEveryPhase := fun w _ s =>
  ⟨refuseAccess_eq s, refuseAccess_eq s, refuseAccess_eq s, refuseAccess_eq s, refuseAccess_eq s,
    fun _ => refuseAccess_eq s, fun h => exec_write_refused h w s⟩

/-- The rows a write to CMD, SEED or KEYDATA can decode to: all of them stand behind the busy test. -/
def isGuarded : Instr → Bool
  | .nop => true
  | .start => true
  | .startRw => true
  | .clear => true
  | .clrerr => true
  | .seed _ => true
  | .push _ => true
  | .cmdIllegal _ => true
  | .pushBad _ => true
  | _ => false

/-- Test 2 of R162, for every row it guards. -/
theorem exec_guarded_busy {i : Instr} {s : State} (hi : isGuarded i = true) (running : s.ph ≠ .idle) :
    exec i s = .next (withError .busyWrite s) := by
  cases i
  case push b => exact execPush_busy b running
  case nop | start | startRw | clear | clrerr | seed | cmdIllegal | pushBad =>
    simp only [exec_nop, exec_start, exec_startRw, exec_clear, exec_clrerr, exec_seed, exec_cmdIllegal, exec_pushBad,
      whenIdle_busy running]
  all_goals cases hi

theorem isGuarded_decodeWrite {reg : BitVec 4} (h : reg = 0 ∨ reg = 2 ∨ reg = 3) (w : Word) :
    isGuarded (decodeWrite reg w) = true := by
  obtain rfl | rfl | rfl := h
  · obtain ⟨-, h⟩ | ⟨-, h⟩ | ⟨-, h⟩ | ⟨-, h⟩ | ⟨-, h⟩ | ⟨-, h⟩ := decodeCommand_cases w <;>
      rw [decodeWrite_cmd, h] <;> rfl
  · rfl
  · rw [decodeWrite_keyData, decodeKeyData]
    split <;> rfl

/-- Settles O22: the three registers decode to guarded rows only. -/
theorem writesDuringARunAreRefused : Obligations.WritesDuringARunAreRefused := by
  intro reg w s h running
  rw [decodeTw_write]
  exact exec_guarded_busy (isGuarded_decodeWrite h w) running

/-! ### Commands in IDLE (R163 to R167, R177) -/

section
variable {s : State} (idle : s.ph = .idle)
include idle

theorem exec_nop_idle : exec .nop s = .next s := whenIdle_idle idle _

theorem exec_start_ignored (i : Instr) (hi : i = .start ∨ i = .startRw) (standing : s.err = true) :
    exec i s = .next s := by
  obtain rfl | rfl := hi <;> simp only [exec_start, exec_startRw, whenIdle_idle idle, standing, if_true]

theorem exec_clear_idle : exec .clear s = .next { s with keylen := 0 } := by
  rw [exec_clear, whenIdle_idle idle, setKeylen]

theorem exec_clrerr_idle : exec .clrerr s = .next { s with err := false, errCode := .none } := by
  rw [exec_clrerr, whenIdle_idle idle, ackErr]

theorem exec_seed_idle (v : Word) : exec (.seed v) s = .next { s with seed := v } := by
  rw [exec_seed, whenIdle_idle idle, setSeed]

theorem exec_cmdIllegal_idle (w : Word) : exec (.cmdIllegal w) s = .next (withError .illegalCmd s) := by
  rw [exec_cmdIllegal, whenIdle_idle idle]

theorem exec_pushBad_idle (w : Word) : exec (.pushBad w) s = .next (withError .badByte s) := by
  rw [exec_pushBad, whenIdle_idle idle]

end

/-- Settles O11: the accepted case answers the state it is given. -/
theorem nopHasNoEffect : Obligations.NopHasNoEffect :=
  ⟨by decide, fun _ => ⟨exec_nop_idle, exec_guarded_busy rfl⟩⟩

/-- Settles O12: a START without the flag. -/
theorem startBeginsARunWithoutTheFilter : Obligations.StartBeginsARunWithoutTheFilter :=
  ⟨by decide, fun _ =>
    ⟨exec_accepted_start false, fun idle => exec_start_ignored idle _ (.inl rfl), exec_guarded_busy rfl⟩⟩

/-- Settles O13: a START with the flag. -/
theorem startRwBeginsARunWithTheFilter : Obligations.StartRwBeginsARunWithTheFilter :=
  ⟨by decide, fun _ =>
    ⟨exec_accepted_start true, fun idle => exec_start_ignored idle _ (.inr rfl), exec_guarded_busy rfl⟩⟩

/-- Settles O14: with KEYLEN 0 no byte of KEY is the Key's. -/
theorem clearEmptiesTheKey : Obligations.ClearEmptiesTheKey :=
  ⟨by decide, fun _ =>
    ⟨exec_clear_idle, fun idle => ⟨_, exec_clear_idle idle, Memory.bytes_zero _⟩, exec_guarded_busy rfl⟩⟩

/-- Settles O15: the accepted case writes the two error fields. -/
theorem clrerrClearsTheError : Obligations.ClrerrClearsTheError :=
  ⟨by decide, fun _ => ⟨exec_clrerr_idle, exec_guarded_busy rfl⟩⟩

/-- Settles O16: the five words are the legal commands, so any other decodes to cmd.illegal. -/
theorem illegalCommandIsRefused : Obligations.IllegalCommandIsRefused := by
  intro w s illegal
  refine ⟨fun idle => exec_cmdIllegal_idle idle w, fun idle => ?_⟩
  rw [decodeTw_cmdIllegal illegal]
  exact exec_cmdIllegal_idle idle w

/-! ### Data writes (R168, R169, R178, R179) -/

/-- Settles O17: the accepted case writes SEED with the operand. -/
theorem seedWritesTheSeed : Obligations.SeedWritesTheSeed := fun v _ =>
  ⟨decodeTw_write 2 v, fun idle => exec_seed_idle idle v, exec_guarded_busy rfl⟩

/-- Settles O20: a word that spells no byte decodes to push.bad. -/
theorem badByteIsRefused : Obligations.BadByteIsRefused := by
  intro w s high idle
  rw [decodeTw_pushBad high]
  exact ⟨exec_pushBad_idle idle w, exec_pushBad_idle idle w⟩

/-- The Key is the pushes in order. -/
theorem keySeq_pushed {s : State} (b : Byte) (room : s.keylen.toNat < s.config.keyCap.toNat) :
    keySeq { s with key := Memory.write s.key s.keylen.toNat b, keylen := s.keylen + 1 } = keySeq s ++ [b] := by
  have hlen : (s.keylen + 1).toNat = s.keylen.toNat + 1 := toNat_succ_of_lt room
  simp only [keySeq, hlen, Memory.bytes_write_end]

/-- Settles O18: with room the byte is written at KEYLEN and nowhere else. -/
theorem pushAppendsOneByte : Obligations.PushAppendsOneByte := by
  intro b s
  rw [append_eq_zext32]
  refine ⟨decodeTw_push b, fun idle room => ?_, fun idle full => execPush_full b idle full, execPush_busy b⟩
  exact ⟨_, execPush_idle b idle room, rfl, Memory.read_write_same .., fun a ha => Memory.read_write_other _ _ a b ha,
    keySeq_pushed b room⟩

/-- Settles O19: a buffer of no bytes is full, and the error a full one raises makes both STARTs be ignored. -/
theorem pushOnAFullBufferOverflows : Obligations.PushOnAFullBufferOverflows := by
  intro b s idle
  rw [append_eq_zext32, decodeTw_push]
  have overflow : s.keylen = s.config.keyCap → exec (.push b) s = .next (withError .keyOverflow s) :=
    execPush_full b idle
  refine ⟨fun full => ⟨overflow full, ?_, ?_⟩, fun noRoom within => overflow ?_⟩
  · exact exec_start_ignored (s := withError .keyOverflow s) idle .start (.inl rfl) rfl
  · exact exec_start_ignored (s := withError .keyOverflow s) idle .startRw (.inr rfl) rfl
  · rw [noRoom] at within ⊢
    exact BitVec.le_zero_iff.mp within

/-! ### The write dispatch (R162) -/

/-- Test 4 of R162 on a byte, in IDLE: full or appended. -/
theorem execPush_idle_eq {s : State} (b : Byte) (within : s.keylen ≤ s.config.keyCap) (idle : s.ph = .idle) :
    execPush b s = .next (if s.keylen = s.config.keyCap then withError .keyOverflow s
      else { s with key := Memory.write s.key s.keylen.toNat b, keylen := s.keylen + 1 }) := by
  split
  · next full => exact execPush_full b idle full
  · next room => exact execPush_idle b idle (BitVec.lt_of_le_ne within room)

theorem reg_refused_or_writable (reg : BitVec 4) : (reg = 1 ∨ 4 ≤ reg) ∨ reg = 0 ∨ reg = 2 ∨ reg = 3 := by
  revert reg
  decide

/-- Settles O23: a refused register, a run, and in IDLE the three registers a write is accepted at; CMD by the
command. -/
theorem writeDispatchMakesTheTestsInOrder : Obligations.WriteDispatchMakesTheTestsInOrder := by
  intro reg w s within
  obtain refused | writable := reg_refused_or_writable reg
  · rw [if_pos refused]
    exact exec_write_refused refused w s
  have notRefused : ¬ (reg = 1 ∨ 4 ≤ reg) := by
    revert reg
    decide
  rw [if_neg notRefused]
  by_cases idle : s.ph = .idle
  case neg =>
    rw [if_pos idle]
    exact writesDuringARunAreRefused reg w s writable idle
  rw [if_neg (not_not.mpr idle), decodeTw_write]
  obtain rfl | rfl | rfl := writable
  · obtain ⟨rfl, h⟩ | ⟨rfl, h⟩ | ⟨rfl, h⟩ | ⟨rfl, h⟩ | ⟨rfl, h⟩ | ⟨illegal, h⟩ := decodeCommand_cases w <;>
      rw [decodeWrite_cmd, h]
    · exact exec_nop_idle idle
    · rw [exec_start, whenIdle_idle idle]; rfl
    · rw [exec_startRw, whenIdle_idle idle]; rfl
    · exact exec_clear_idle idle
    · exact exec_clrerr_idle idle
    · obtain ⟨h0, h1, h2, h3, h4⟩ : w ≠ 0x0 ∧ w ≠ 0x1 ∧ w ≠ 0x101 ∧ w ≠ 0x2 ∧ w ≠ 0x3 := by
        simpa [legalCommands] using illegal
      rw [exec_cmdIllegal_idle idle w]
      simp only [h0, h1, h2, h3, h4, if_false]
      rfl
  · exact exec_seed_idle idle w
  · rw [decodeWrite_keyData]
    by_cases high : w.extractLsb' 8 24 = 0
    · rw [decodeKeyData_byte high, exec_push, execPush_idle_eq _ within idle]
      simp only [high, ne_eq, not_true, if_false]
      rfl
    · rw [decodeKeyData_bad high, exec_pushBad_idle idle w]
      simp only [high, ne_eq, not_false_eq_true, if_true]
      rfl

end Sys2Proof.Machine

/-! The block at its ports (spec/43_host_commands.md R160; spec/70_reset_and_hazards.md R230, R239): the turns of one
edge, and that the reply of the transaction taken is what the data port shows. -/

namespace Sys2Proof.Machine

/-! ### What a turn replies -/

theorem isRead_decodeWrite (reg : BitVec 4) (w : Word) : isRead (decodeWrite reg w) = false := by
  unfold decodeWrite decodeCommand decodeKeyData
  split_ifs <;> rfl

/-- A row that is no read leaves the reply port alone. -/
theorem exec_reply_eq {i : Instr} {s t : State} (hr : isRead i = false) (h : exec i s = .next t) :
    t.reply = s.reply := by
  cases hi : isTransaction i with
  | false => rw [execEngine_frame hi h]
  | true =>
    obtain ⟨read, -⟩ | ⟨-, c, -, -, -, rfl⟩ | ⟨-, -, accepted⟩ := execTransaction_cases hi h
    · simp [hr] at read
    · rfl
    · obtain ⟨-, rfl⟩ | ⟨-, -, rfl⟩ | ⟨-, -, rfl⟩ | ⟨-, -, rfl⟩ | ⟨-, rfl⟩ | ⟨-, rfl⟩ | ⟨v, -, rfl⟩
        | ⟨b, -, -, rfl⟩ := accepted <;> rfl

theorem isRead_of_not_isTransaction {i : Instr} (hi : isTransaction i = false) : isRead i = false := by
  cases i
  case idle | filtByte | filtExit | init | bodyChunk | bodyExit | tail | final => rfl
  all_goals cases hi

theorem engineTurn_reply {s t : State} (h : engineTurn s = .next t) : t.reply = s.reply := by
  obtain ⟨⟨⟩, -⟩ | ⟨i, enabled | enabled, hx⟩ := takeTurn_cases (turn := .engine) h
  exact exec_reply_eq (isRead_of_not_isTransaction (not_isTransaction_of_engineRule enabled)) hx

theorem engineTurn_final_eq {s : State} (hp : s.ph = .final) : engineTurn s =
    .next { s with h := avalanche s.h, hash := avalanche s.h, done := true, ph := .idle } :=
  (engineTurn_final hp).trans (if_pos hp)

theorem takeTurn_read (reg : BitVec 4) (w : Word) (s : State) :
    takeTurn (.host (makeTw false reg w)) s = .next (replyWith (readReg reg s) s) := exec_read reg w s

theorem takeTurn_write_reply {reg : BitVec 4} {w : Word} {s t : State}
    (h : takeTurn (.host (makeTw true reg w)) s = .next t) : t.reply = s.reply :=
  exec_reply_eq (decodeTw_write reg w ▸ isRead_decodeWrite reg w) h

theorem takeTurns_singleton (u : Turn) (s : State) : takeTurns [u] s = takeTurn u s := by
  rw [takeTurns]
  cases takeTurn u s <;> rfl

/-! ### One edge -/

section
variable {p : PortIn} {s t : State}

/-- The reply of the presented transaction is what the data port shows before the edge. -/
theorem reply_eq_rspRdata (valid : p.reqValid = true)
    (h : takeTurn (.host (requestWord p)) { s with reply := none } = .next t) :
    (p.reqWe = false → t.reply = some (portOut p s).rspRdata)
      ∧ (p.reqWe = true → t.reply = none ∧ (portOut p s).rspRdata = 0) := by
  unfold requestWord at h
  refine ⟨fun read => ?_, fun write => ?_⟩
  · rw [read, takeTurn_read] at h
    cases h
    simp only [portOut, valid, read]
    rfl
  · rw [write] at h
    refine ⟨takeTurn_write_reply h, ?_⟩
    simp only [portOut, write, Bool.not_true, Bool.and_false]
    rfl

theorem clockEdge_reset (moves : Bool) (reset : p.rst = true) :
    clockEdge p moves s = takeTurn .reset { s with reply := none } := by
  rw [clockEdge, edgeTurns, if_pos reset, takeTurns_singleton]

/-- In IDLE no engine step completes on the edge. -/
theorem clockEdge_idle (moves : Bool) (idle : s.ph = .idle) : clockEdge p moves s = clockEdge p false s := by
  simp only [clockEdge, edgeTurns, busy_eq_false idle, Bool.and_false]

variable (noReset : p.rst = false)
include noReset

theorem clockEdge_nothing (quiet : p.reqValid = false) : clockEdge p false s = .next { s with reply := none } := by
  simp [clockEdge, edgeTurns, noReset, quiet, takeTurns]

theorem clockEdge_host (valid : p.reqValid = true)
    (h : takeTurn (.host (requestWord p)) { s with reply := none } = .next t) : clockEdge p false s = .next t := by
  simp [clockEdge, edgeTurns, noReset, valid, takeTurns, h]

theorem clockEdge_engine (quiet : p.reqValid = false) (running : s.ph ≠ .idle) :
    clockEdge p true s = takeTurn .engine { s with reply := none } := by
  simp only [clockEdge, edgeTurns, noReset, quiet, busy_eq_true running]
  exact takeTurns_singleton ..

theorem clockEdge_host_engine {u : State} (valid : p.reqValid = true) (running : s.ph ≠ .idle)
    (hu : takeTurn (.host (requestWord p)) { s with reply := none } = .next u)
    (ht : takeTurn .engine u = .next t) : clockEdge p true s = .next t := by
  simp [clockEdge, edgeTurns, noReset, valid, busy_eq_true running, takeTurns, hu, ht]

end

/-- Settles O10: the edge's turns one clause each. Beside FINAL the read's reply is taken in FINAL, and the engine's
step, which is then `final`, keeps it. -/
theorem portsShowTheTakenTransaction : Obligations.PortsShowTheTakenTransaction := by
  intro p s
  refine ⟨fun reset moves => clockEdge_reset moves reset, clockEdge_nothing, fun noReset valid t h => ?host,
    fun idle moves => clockEdge_idle moves idle, fun noReset quiet running => ?engine,
    fun noReset valid running u t hu ht => ?both, fun noReset valid read final => ?besideFinal,
    fun quiet => ?quietPort, rfl, rfl, rfl⟩
  case host => exact ⟨clockEdge_host noReset valid h, reply_eq_rspRdata valid h⟩
  case engine => exact clockEdge_engine noReset quiet running
  case both =>
    have kept : t.reply = u.reply := engineTurn_reply ht
    rw [kept]
    exact ⟨clockEdge_host_engine noReset valid running hu ht, reply_eq_rspRdata valid hu⟩
  case besideFinal =>
    have running : s.ph ≠ .idle := final ▸ Phase.noConfusion
    have hu : takeTurn (.host (requestWord p)) { s with reply := none }
        = .next { s with reply := some (readReg p.reqReg s) } := by
      rw [requestWord, read, takeTurn_read]
      rfl
    have ht := engineTurn_final_eq (s := { s with reply := some (readReg p.reqReg s) }) final
    exact ⟨_, clockEdge_host_engine noReset valid running hu ht, rfl, rfl, rfl, busy_eq_true running⟩
  case quietPort =>
    simp only [portOut, quiet, Bool.false_and]
    rfl

end Sys2Proof.Machine

/-! The head of a call (spec/30_encoding.md R77; spec/43_host_commands.md R181): the lines of key, seed and START lead to
the run of that key and seed, or to an error. -/

namespace Sys2Proof.Machine

/-! ### The transactions of a call's head -/

theorem callHead_some (elements : List Word) (seedArg : Option Word) (rw : Bool) :
    callHead (some elements) seedArg rw = .clear :: (pushs elements ++ callHead none seedArg rw) := by
  cases seedArg <;> simp [callHead]

/-- From `s` the lines are taken one after the other, each in IDLE and without a reply, and lead to a state of `P`. -/
def Leads (P : State → Prop) : List ScriptLine → State → Prop
  | [], s => P s
  | l :: ls, s => s.ph = .idle
      ∧ ∀ r, ∃ t, takeTurn (.host (lineTw l)) { s with reply := r } = .next t ∧ t.reply = r ∧ Leads P ls t

theorem Leads.mono {P Q : State → Prop} (h : ∀ s, P s → Q s) {ls : List ScriptLine} {s : State} (hl : Leads P ls s) :
    Leads Q ls s := by
  induction ls generalizing s with
  | nil => exact h s hl
  | cons l ls ih =>
    obtain ⟨idle, step⟩ := hl
    refine ⟨idle, fun r => ?_⟩
    obtain ⟨t, ht, hr, rest⟩ := step r
    exact ⟨t, ht, hr, ih rest⟩

/-- The head presented alone, with no engine turn in between. -/
theorem Leads.takeTurns {P : State → Prop} {ls : List ScriptLine} {s : State} (hl : Leads P ls s) :
    ∃ t, takeTurns (hostTurns ls) s = .next t ∧ P t := by
  induction ls generalizing s with
  | nil => exact ⟨s, rfl, hl⟩
  | cons l ls ih =>
    obtain ⟨u, hu, -, rest⟩ := hl.2 s.reply
    obtain ⟨t, ht, hP⟩ := ih rest
    exact ⟨t, (takeTurns_cons hu).trans ht, hP⟩

/-- A line taken from every state of `Q`, which says nothing of the reply. -/
theorem Leads.cons {P Q : State → Prop} {l : ScriptLine} {ls : List ScriptLine} {s : State} (hs : Q s)
    (any_reply : ∀ s r, Q s → Q { s with reply := r }) (idle : ∀ s, Q s → s.ph = .idle)
    (step : ∀ s, Q s → ∃ t, takeTurn (.host (lineTw l)) s = .next t ∧ t.reply = s.reply ∧ Leads P ls t) :
    Leads P (l :: ls) s :=
  ⟨idle s hs, fun r => step _ (any_reply s r hs)⟩

theorem takeTurn_write_of_decode {reg : BitVec 4} {w : Word} {i : Instr} (s : State) (h : decodeWrite reg w = i) :
    takeTurn (.host (makeTw true reg w)) s = exec i s :=
  congrArg (exec · s) ((decodeTw_write reg w).trans h)

theorem takeTurn_clear (s : State) : takeTurn (.host (lineTw .clear)) s = exec .clear s :=
  takeTurn_write_of_decode s rfl

theorem takeTurn_seed (v : Word) (s : State) : takeTurn (.host (lineTw (.seed v))) s = exec (.seed v) s :=
  takeTurn_write_of_decode s rfl

theorem takeTurn_push (b : Byte) (s : State) : takeTurn (.host (lineTw (.push (zext32 b)))) s = exec (.push b) s :=
  takeTurn_write_of_decode s (decodeKeyData_zext b)

theorem takeTurn_pushBad {w : Word} (high : w.extractLsb' 8 24 ≠ 0) (s : State) :
    takeTurn (.host (lineTw (.push w))) s = exec (.pushBad w) s :=
  takeTurn_write_of_decode s (decodeKeyData_bad high)

theorem takeTurn_start (rw : Bool) (s : State) :
    takeTurn (.host (lineTw (if rw then .startRw else .start))) s = exec (if rw then .startRw else .start) s := by
  cases rw <;> exact takeTurn_write_of_decode s rfl

/-! ### A key that fits -/

/-- Idle with no error, the Key `K` and the seed `sd` held, in a buffer of `cap` bytes. -/
structure Holds (cap : Word) (K : List Byte) (sd : Word) (s : State) : Prop where
  inv : MachineInv s
  idle : s.ph = .idle
  noErr : s.err = false
  cap : s.config.keyCap = cap
  key : keySeq s = K
  seed : s.seed = sd

/-- The state an accepted START of a call leaves. -/
structure Started (K : List Byte) (sd : Word) (rw : Bool) (s : State) : Prop where
  inv : MachineInv s
  noErr : s.err = false
  key : keySeq s = K
  run : RunOf K sd rw s
  left : stepsLeft s = runSteps K.length (if rw then filterWs K else K).length rw

namespace Holds

variable {cap : Word} {K : List Byte} {sd : Word} {s : State}

theorem with_reply (h : Holds cap K sd s) (r : Option Word) : Holds cap K sd { s with reply := r } :=
  { h with inv := h.inv.with_reply r }

theorem started (h : Holds cap K sd s) (rw : Bool) : Started K sd rw (beginRun rw (firstPhase rw) s) := by
  obtain ⟨inv, -, noErr, -, rfl, rfl⟩ := h
  refine ⟨inv.beginRun rw, noErr, rfl, runOf_beginRun s rw, ?_⟩
  rw [stepsLeft_beginRun, length_keySeq]

theorem pushed (h : Holds cap K sd s) (b : Byte) (room : K.length < cap.toNat) :
    ∃ t, exec (.push b) s = .next t ∧ t.reply = s.reply ∧ Holds cap (K ++ [b]) sd t := by
  obtain ⟨inv, idle, noErr, rfl, rfl, rfl⟩ := h
  rw [length_keySeq] at room
  exact ⟨_, execPush_idle b idle room, rfl, inv.of_pushed idle b room, idle, noErr, rfl, keySeq_pushed b room, rfl⟩

theorem leads_start (h : Holds cap K sd s) (rw : Bool) :
    Leads (Started K sd rw) [if rw then .startRw else .start] s := by
  refine .cons h (fun _ r h => h.with_reply r) (fun _ h => h.idle) fun s h => ?_
  exact ⟨_, (takeTurn_start rw s).trans (exec_accepted_start rw h.idle h.noErr), rfl, h.started rw⟩

theorem leads_seed (h : Holds cap K sd s) (seedArg : Option Word) (rw : Bool) :
    Leads (Started K (seedArg.getD sd) rw) (callHead none seedArg rw) s := by
  cases seedArg with
  | none => exact h.leads_start rw
  | some v =>
    refine .cons h (fun _ r h => h.with_reply r) (fun _ h => h.idle) fun s h => ?_
    have seeded : Holds cap K v { s with seed := v } :=
      { h with inv := h.inv.of_transaction (i := .seed v) rfl (exec_seed_idle h.idle v), seed := rfl }
    exact ⟨_, (takeTurn_seed v s).trans (exec_seed_idle h.idle v), rfl, seeded.leads_start rw⟩

theorem leads_pushs (rest : List Byte) (h : Holds cap K sd s) (fits : (K ++ rest).length ≤ cap.toNat)
    (seedArg : Option Word) (rw : Bool) :
    Leads (Started (K ++ rest) (seedArg.getD sd) rw) (pushs (rest.map zext32) ++ callHead none seedArg rw) s := by
  induction rest generalizing K s with
  | nil =>
    rw [List.append_nil]
    exact h.leads_seed seedArg rw
  | cons b rest ih =>
    have regroup : K ++ b :: rest = (K ++ [b]) ++ rest := List.append_cons ..
    have room : K.length < cap.toNat := by
      rw [List.length_append, List.length_cons] at fits
      omega
    refine .cons h (fun _ r h => h.with_reply r) (fun _ h => h.idle) fun s h => ?_
    obtain ⟨t, ht, hr, pushed⟩ := h.pushed b room
    rw [regroup] at fits ⊢
    exact ⟨t, (takeTurn_push b s).trans ht, hr, ih pushed fits⟩

/-- The head of a call, the key and the seed given or left out. -/
theorem leads_callHead (h : Holds cap K sd s) (keyArg : Option (List Byte)) (seedArg : Option Word) (rw : Bool)
    (fits : (keyArg.getD K).length ≤ cap.toNat) :
    Leads (Started (keyArg.getD K) (seedArg.getD sd) rw) (callHead (keyArg.map (List.map zext32)) seedArg rw) s := by
  cases keyArg with
  | none => exact h.leads_seed seedArg rw
  | some key =>
    rw [Option.map_some, callHead_some]
    refine .cons h (fun _ r h => h.with_reply r) (fun _ h => h.idle) fun s h => ?_
    have cleared : Holds cap [] sd { s with keylen := 0 } :=
      { h with inv := h.inv.of_transaction (i := .clear) rfl (exec_clear_idle h.idle), key := rfl }
    exact ⟨_, (takeTurn_clear s).trans (exec_clear_idle h.idle), rfl, cleared.leads_pushs key fits seedArg rw⟩

end Holds

/-! ### A key that does not fit -/

/-- Idle with an error standing. -/
structure Refused (s : State) : Prop where
  idle : s.ph = .idle
  standing : s.err = true

/-- Idle, and an error stands or will when the elements `rest` are pushed: one is no byte, or they are too many. -/
structure Doomed (rest : List Word) (s : State) : Prop where
  inv : MachineInv s
  idle : s.ph = .idle
  cause : s.err = true ∨ (∃ w ∈ rest, w.extractLsb' 8 24 ≠ 0)
    ∨ s.config.keyCap.toNat < s.keylen.toNat + rest.length

namespace Doomed

variable {rest : List Word} {s : State}

theorem with_reply (h : Doomed rest s) (r : Option Word) : Doomed rest { s with reply := r } :=
  { h with inv := h.inv.with_reply r }

/-- With nothing left to push the error stands: KEYLEN is at most KEY_CAP. -/
theorem refused (h : Doomed [] s) : Refused s := by
  refine ⟨h.idle, ?_⟩
  obtain standing | ⟨w, hw, -⟩ | excess := h.cause
  · exact standing
  · cases hw
  · exact absurd h.inv.keylenWithin (BitVec.not_le.mpr excess)

theorem raised {w : Word} {c : ErrCode} (h : Doomed (w :: rest) s) (hc : c ≠ .none) :
    Doomed rest (withError c s) :=
  ⟨h.inv.withError hc, h.idle, .inl rfl⟩

theorem pushed {w : Word} (h : Doomed (w :: rest) s) :
    ∃ t, takeTurn (.host (lineTw (.push w))) s = .next t ∧ t.reply = s.reply ∧ Doomed rest t := by
  by_cases high : w.extractLsb' 8 24 = 0
  case neg =>
    exact ⟨_, (takeTurn_pushBad high s).trans (exec_pushBad_idle h.idle w), rfl, h.raised (by decide)⟩
  obtain ⟨b, rfl⟩ : ∃ b, w = zext32 b := ⟨_, (zext32_of_high_zero w high).symm⟩
  rw [takeTurn_push]
  by_cases full : s.keylen = s.config.keyCap
  · exact ⟨_, execPush_full b h.idle full, rfl, h.raised (by decide)⟩
  · have room : s.keylen < s.config.keyCap := BitVec.lt_of_le_ne h.inv.keylenWithin full
    refine ⟨_, execPush_idle b h.idle room, rfl, h.inv.of_pushed h.idle b room, h.idle, ?_⟩
    have hlen : (s.keylen + 1).toNat = s.keylen.toNat + 1 := toNat_succ_of_lt room
    obtain standing | ⟨w, hw, bad⟩ | excess := h.cause
    · exact .inl standing
    · obtain rfl | hw := List.mem_cons.mp hw
      · exact absurd high bad
      · exact .inr (.inl ⟨w, hw, bad⟩)
    · rw [List.length_cons] at excess
      refine .inr (.inr ?_)
      simp only [hlen]
      omega

end Doomed

theorem Refused.leads_start {s : State} (h : Refused s) (rw : Bool) :
    Leads Refused [if rw then .startRw else .start] s := by
  refine .cons h (fun _ _ h => ⟨h.idle, h.standing⟩) (fun _ h => h.idle) fun s h => ?_
  have ignored : exec (if rw then .startRw else .start) s = .next s :=
    exec_start_ignored h.idle _ (by cases rw <;> simp) h.standing
  exact ⟨s, (takeTurn_start rw s).trans ignored, rfl, h⟩

theorem Refused.leads_seed {s : State} (h : Refused s) (seedArg : Option Word) (rw : Bool) :
    Leads Refused (callHead none seedArg rw) s := by
  cases seedArg with
  | none => exact h.leads_start rw
  | some v =>
    refine .cons h (fun _ _ h => ⟨h.idle, h.standing⟩) (fun _ h => h.idle) fun s h => ?_
    have seeded : Refused { s with seed := v } := ⟨h.idle, h.standing⟩
    exact ⟨_, (takeTurn_seed v s).trans (exec_seed_idle h.idle v), rfl, seeded.leads_start rw⟩

theorem Doomed.leads_pushs {rest : List Word} {s : State} (h : Doomed rest s) (seedArg : Option Word) (rw : Bool) :
    Leads Refused (pushs rest ++ callHead none seedArg rw) s := by
  induction rest generalizing s with
  | nil => exact h.refused.leads_seed seedArg rw
  | cons w rest ih =>
    refine .cons h (fun _ r h => h.with_reply r) (fun _ h => h.idle) fun s h => ?_
    obtain ⟨t, ht, hr, doomed⟩ := h.pushed
    exact ⟨t, ht, hr, ih doomed⟩

theorem leads_refused {s : State} (hI : MachineInv s) (idle : s.ph = .idle) {elements : List Word}
    (cause : (∃ w ∈ elements, w.extractLsb' 8 24 ≠ 0) ∨ s.config.keyCap.toNat < elements.length)
    (seedArg : Option Word) (rw : Bool) : Leads Refused (callHead (some elements) seedArg rw) s := by
  rw [callHead_some]
  refine ⟨idle, fun r => ?_⟩
  have hclear : exec .clear { s with reply := r } = .next { s with keylen := 0, reply := r } := exec_clear_idle idle
  have doomed : Doomed elements { s with keylen := 0, reply := r } :=
    ⟨(hI.with_reply r).of_transaction rfl hclear, idle,
      .inr (cause.imp_right fun excess => (Nat.zero_add _).symm ▸ excess)⟩
  exact ⟨_, (takeTurn_clear _).trans hclear, rfl, doomed.leads_pushs seedArg rw⟩

end Sys2Proof.Machine

/-! Scripts played in any order of host and engine (spec/30_encoding.md R82; spec/43_host_commands.md R181): every play
can be finished, and what the two scripts of a call give the caller. -/

namespace Sys2Proof.Machine

/-! ### A script played in any order of movers -/

/-- What every move but a reset keeps, every play without one keeps. -/
theorem play_keeps {I : Play → Prop}
    (keeps : ∀ m p, m ≠ .reset → I p → ∃ q, playMove m p = .next q ∧ I q) {moves : List Mover} {p : Play}
    (noReset : .reset ∉ moves) (hp : I p) : ∃ q, play moves p = .next q ∧ I q := by
  induction moves generalizing p with
  | nil => exact ⟨p, rfl, hp⟩
  | cons m moves ih =>
    rw [List.mem_cons, not_or] at noReset
    obtain ⟨hm, noReset⟩ := noReset
    obtain ⟨r, hr, hI⟩ := keeps m p (Ne.symm hm) hp
    obtain ⟨q, hq, hI⟩ := ih noReset hI
    exact ⟨q, (play_cons hr).trans hq, hI⟩

/-- The engine's move: it replies nothing and leaves the script alone. -/
theorem playMove_engine_next {s : State} (hI : MachineInv s) (script : List ScriptItem) (rs : List Word) :
    ∃ t, engineTurn { s with reply := none } = .next t ∧ MachineInv t
      ∧ playMove .engine ⟨script, s, rs⟩ = .next ⟨script, t, rs⟩ := by
  obtain ⟨t, ht⟩ := engineTurn_next (hI.with_reply none)
  have silent : t.reply = none := engineTurn_reply ht
  refine ⟨t, ht, (hI.with_reply none).of_engineTurn ht, ?_⟩
  rw [playMove_engine rs ht, silent]
  exact congrArg (fun rs => Host.Outcome.next (Play.mk script t rs)) (List.append_nil rs)

/-- In IDLE it only clears the reply port. -/
theorem eq_of_engineTurn_idle {s t : State} (idle : s.ph = .idle)
    (h : engineTurn { s with reply := none } = .next t) : t = { s with reply := none } :=
  Host.Outcome.next.inj (h.symm.trans (engineTurn_idle_eq (s := { s with reply := none }) idle))

/-- A read line's move notes the read value. -/
theorem playMove_host_read {l : ScriptLine} {reg : BitVec 4} (hl : lineTw l = makeTw false reg 0)
    (rest : List ScriptItem) (s : State) (rs : List Word) :
    playMove .host ⟨.line l :: rest, s, rs⟩
      = .next ⟨rest, { s with reply := some (readReg reg s) }, rs ++ [readReg reg s]⟩ := by
  have ht : takeTurn (.host (lineTw l)) { s with reply := none } = .next { s with reply := some (readReg reg s) } := by
    rw [hl, takeTurn_read]
    rfl
  exact playMove_host_line rs ht

/-- From a state that meets the invariant every move completes. -/
theorem playMove_next (m : Mover) {p : Play} (hI : MachineInv p.state) :
    ∃ q, playMove m p = .next q ∧ MachineInv q.state := by
  unfold playMove
  split
  · exact ⟨p, rfl, hI⟩
  · next turn _ =>
    obtain ⟨t, ht⟩ := takeTurn_next turn (hI.with_reply none)
    rw [ht]
    exact ⟨_, rfl, (hI.with_reply none).of_takeTurn ht⟩

/-! ### Every script can be played to its end -/

/-- The engine, moved often enough, ends the run in progress. -/
theorem play_engine_to_idle (script : List ScriptItem) (rs : List Word) {n : Nat} {s : State} (hI : MachineInv s)
    (left : stepsLeft s = n) :
    ∃ t, play (List.replicate n .engine) ⟨script, s, rs⟩ = .next ⟨script, t, rs⟩ ∧ MachineInv t ∧ t.ph = .idle := by
  induction n generalizing s with
  | zero => exact ⟨s, rfl, hI, stepsLeft_eq_zero_iff.mp left⟩
  | succ n ih =>
    obtain ⟨u, hu, hIu, hmove⟩ := playMove_engine_next hI script rs
    have running : s.ph ≠ .idle := fun idle => Nat.succ_ne_zero n (left.symm.trans (stepsLeft_eq_zero_iff.mpr idle))
    have countdown : stepsLeft s = stepsLeft u + 1 := ((hI.with_reply none).runStep_engineTurn running hu).countdown
    obtain ⟨t, ht, rest⟩ := ih hIu (by omega)
    exact ⟨t, (play_cons hmove).trans ht, rest⟩

/-- In IDLE the host's next item is done by one move. -/
theorem playMove_host_idle {item : ScriptItem} {rest : List ScriptItem} {s : State} (rs : List Word)
    (hI : MachineInv s) (idle : s.ph = .idle) :
    ∃ t rs', playMove .host ⟨item :: rest, s, rs⟩ = .next ⟨rest, t, rs'⟩ ∧ MachineInv t := by
  cases item with
  | line l =>
    obtain ⟨t, ht⟩ := takeTurn_next (.host (lineTw l)) (hI.with_reply none)
    exact ⟨t, _, playMove_host_line rs ht, (hI.with_reply none).of_takeTurn ht⟩
  | wait =>
    have hmove := playMove_host_wait rest s rs
    rw [busy_eq_false idle] at hmove
    exact ⟨_, _, hmove, hI.with_reply _⟩

theorem exists_play_to_end (script : List ScriptItem) (rs : List Word) {s : State} (hI : MachineInv s) :
    ∃ more q, .reset ∉ more ∧ play more ⟨script, s, rs⟩ = .next q ∧ q.script = [] := by
  induction script generalizing s rs with
  | nil => exact ⟨[], _, List.not_mem_nil, rfl, rfl⟩
  | cons item rest ih =>
    obtain ⟨u, hu, hIu, idle⟩ := play_engine_to_idle (item :: rest) rs hI rfl
    obtain ⟨t, rs', hmove, hIt⟩ := playMove_host_idle (item := item) (rest := rest) rs hIu idle
    obtain ⟨more, q, noReset, hq, ended⟩ := ih rs' hIt
    refine ⟨List.replicate (stepsLeft s) .engine ++ .host :: more, q, ?_, ?_, ended⟩
    · simp [noReset]
    · rw [play_append hu, play_cons hmove, hq]

/-! ### The play of a call -/

/-- The reads a script of a call ends with: `rd.status` `k` times more, then `rd.hash`. -/
def callEnd (k : Nat) : List ScriptItem := List.replicate k (.line .rdStatus) ++ [.line .rdHash]

theorem callResult_append (rs : List Word) (status hash : Word) :
    callResult (rs ++ [status, hash]) = if !status.getLsbD 2 && status.getLsbD 1 then some hash else none := by
  simp [callResult]

/-- The states of `P` give the caller `result`: neither a read nor the engine leaves `P`, and in IDLE the flags and HASH
say `result`. -/
structure Concludes (P : State → Prop) (result : Option Word) : Prop where
  with_reply : ∀ {s} r, P s → P { s with reply := r }
  of_engineTurn : ∀ {s t}, MachineInv s → P s → engineTurn s = .next t → P t
  value : ∀ {s}, P s → s.ph = .idle → (if !s.err && s.done then some s.hash else none) = result

theorem Concludes.callResult_eq {P : State → Prop} {result : Option Word} (hP : Concludes P result) {s : State}
    (holds : P s) (idle : s.ph = .idle) (rs : List Word) : callResult (rs ++ [statusWord s, s.hash]) = result := by
  obtain ⟨-, hdone, herr, -⟩ := statusWord_bits s
  rw [callResult_append, herr, hdone, hP.value holds idle]

/-- A call being played whose head leads to `P`: at its head or its `wait`, at the reads after the `wait`, or over. -/
inductive Calling (P : State → Prop) (result : Option Word) : Play → Prop
  | head {ls : List ScriptLine} {s : State} (k : Nat) (rs : List Word) (leads : Leads P ls s) :
      Calling P result ⟨ls.map .line ++ .wait :: callEnd k, s, rs⟩
  | reads {s : State} (k : Nat) (rs : List Word) (holds : P s) (idle : s.ph = .idle) :
      Calling P result ⟨callEnd k, s, rs ++ [statusWord s]⟩
  | ended {s : State} {rs : List Word} (holds : P s) (idle : s.ph = .idle) (value : callResult rs = result) :
      Calling P result ⟨[], s, rs⟩

section
variable {P : State → Prop} {result : Option Word} (hP : Concludes P result)
include hP

theorem Leads.of_engineTurn {ls : List ScriptLine} {s t : State} (hI : MachineInv s) (hl : Leads P ls s)
    (h : engineTurn { s with reply := none } = .next t) : Leads P ls t := by
  cases ls with
  | nil => exact hP.of_engineTurn (hI.with_reply none) (hP.with_reply none hl) h
  | cons l ls =>
    obtain ⟨idle, step⟩ := hl
    rw [eq_of_engineTurn_idle idle h]
    exact ⟨idle, step⟩

theorem Calling.engine_move {p q : Play} (hI : MachineInv p.state) (hc : Calling P result p)
    (h : playMove .engine p = .next q) : Calling P result q := by
  obtain ⟨script, s, rs⟩ := p
  obtain ⟨t, ht, -, hmove⟩ := playMove_engine_next hI script rs
  cases h.symm.trans hmove
  cases hc with
  | head k rs leads => exact .head k rs (leads.of_engineTurn hP hI ht)
  | reads k rs holds idle =>
    rw [eq_of_engineTurn_idle idle ht]
    exact .reads (s := { s with reply := none }) k rs (hP.with_reply none holds) idle
  | ended holds idle value =>
    rw [eq_of_engineTurn_idle idle ht]
    exact .ended (hP.with_reply none holds) idle value

theorem Calling.host_move {p q : Play} (hc : Calling P result p) (h : playMove .host p = .next q) :
    Calling P result q := by
  cases hc with
  | @head ls s k rs leads =>
    cases ls with
    | nil =>
      cases h.symm.trans (playMove_host_wait (callEnd k) s rs)
      by_cases idle : s.ph = .idle
      · rw [busy_eq_false idle]
        exact .reads (s := { s with reply := some (statusWord s) }) k rs (hP.with_reply _ leads) idle
      · rw [busy_eq_true idle]
        exact .head (ls := []) k _ (hP.with_reply _ leads)
    | cons l ls =>
      obtain ⟨t, ht, -, rest⟩ := leads.2 none
      cases h.symm.trans (playMove_host_line rs ht)
      exact .head k _ rest
  | @reads s k rs holds idle =>
    cases k with
    | zero =>
      cases h.symm.trans (playMove_host_read (l := .rdHash) rfl [] s _)
      refine .ended (hP.with_reply _ holds) idle ?_
      rw [List.append_assoc]
      exact hP.callResult_eq holds idle rs
    | succ k =>
      cases h.symm.trans (playMove_host_read (l := .rdStatus) rfl (callEnd k) s _)
      exact .reads (s := { s with reply := some (statusWord s) }) k _ (hP.with_reply _ holds) idle
  | ended holds idle value =>
    cases h.symm.trans (playMove_host_done _ _)
    exact .ended holds idle value

/-- A call, played in any order without a reset, never stops and can be played to its end. -/
theorem play_calling {p : Play} (hI : MachineInv p.state) (hc : Calling P result p) {moves : List Mover}
    (noReset : .reset ∉ moves) :
    ∃ q, play moves p = .next q ∧ Calling P result q
      ∧ ∃ more r, .reset ∉ more ∧ play more q = .next r ∧ r.script = [] := by
  have keeps : ∀ m p, m ≠ .reset → MachineInv p.state ∧ Calling P result p →
      ∃ q, playMove m p = .next q ∧ MachineInv q.state ∧ Calling P result q := by
    rintro m p hm ⟨hI, hc⟩
    obtain ⟨q, hq, hIq⟩ := playMove_next m hI
    refine ⟨q, hq, hIq, ?_⟩
    cases m with
    | host => exact hc.host_move hP hq
    | engine => exact hc.engine_move hP hI hq
    | reset => exact absurd rfl hm
  obtain ⟨q, hq, hI, hc⟩ := play_keeps keeps noReset ⟨hI, hc⟩
  exact ⟨q, hq, hc, exists_play_to_end q.script q.replies hI⟩

end

/-- Both scripts of a call are its head, `wait`, and the reads of `callEnd`. -/
theorem Calling.of_script {P : State → Prop} {result : Option Word} {key : Option (List Word)} {seed : Option Word}
    {rw : Bool} {s : State} (leads : Leads P (callHead key seed rw) s) {script : List ScriptItem}
    (h : script ∈ [callScript key seed rw, hashScript key seed rw]) : Calling P result (playFrom script s) := by
  rw [List.mem_pair] at h
  obtain rfl | rfl := h
  · exact .head 0 [] leads
  · exact .head 1 [] leads

theorem Calling.of_script_nil {P : State → Prop} {result : Option Word} {p : Play} (hc : Calling P result p)
    (h : p.script = []) : P p.state ∧ callResult p.replies = result := by
  cases hc with
  | head k rs leads => exact absurd h (by simp)
  | reads k rs holds idle => exact absurd h (by simp [callEnd])
  | ended holds idle value => exact ⟨holds, value⟩

/-! ### What the caller gets (R181) -/

/-- A state of the call's run, no error standing. -/
structure InCall (K : List Byte) (sd : Word) (rw : Bool) (s : State) : Prop where
  run : RunOf K sd rw s
  noErr : s.err = false

theorem Started.inCall {K : List Byte} {sd : Word} {rw : Bool} {s : State} (h : Started K sd rw s) :
    InCall K sd rw s :=
  ⟨h.run, h.noErr⟩

theorem RunOf.published {K : List Byte} {sd : Word} {rw : Bool} {s : State} (h : RunOf K sd rw s)
    (idle : s.ph = .idle) : s.done = true ∧ s.hash = hashOf K sd rw := by
  obtain ⟨running, -⟩ | ⟨-, published⟩ := h
  · exact absurd idle running
  · exact published

/-- The run publishes its hash. -/
theorem InCall.concludes (K : List Byte) (sd : Word) (rw : Bool) :
    Concludes (InCall K sd rw) (some (hashOf K sd rw)) where
  with_reply _ h := ⟨h.run, h.noErr⟩
  of_engineTurn hI h ht := ⟨h.run.of_engineTurn hI ht, (sameInputs_of_engineTurn ht).err.trans h.noErr⟩
  value h idle := by
    obtain ⟨hdone, hhash⟩ := h.run.published idle
    simp [h.noErr, hdone, hhash]

/-- A refused call gives no value. -/
theorem Refused.concludes : Concludes Refused none where
  with_reply _ h := ⟨h.idle, h.standing⟩
  of_engineTurn _ h ht := by
    rw [engineTurn_idle_eq h.idle] at ht
    cases ht
    exact h
  value h _ := by simp [h.standing]

theorem Calling.refused_idle {result : Option Word} {p : Play} (hc : Calling Refused result p) :
    p.state.ph = .idle := by
  cases hc with
  | @head ls s k rs leads =>
    cases ls with
    | nil => exact leads.idle
    | cons l ls => exact leads.1
  | reads k rs holds idle => exact idle
  | ended holds idle value => exact idle

/-- STATUS after a run with no error: DONE alone. -/
theorem statusWord_done {s : State} (hI : MachineInv s) (idle : s.ph = .idle) (hdone : s.done = true)
    (noErr : s.err = false) : statusWord s = 2 := by
  rw [statusWord, busy_eq_false idle, hdone, noErr, hI.errIff.mp noErr]
  rfl

/-- The engine's turns of the run that a call's START began. -/
theorem Started.completes {K : List Byte} {sd : Word} {rw : Bool} {s : State} (h : Started K sd rw s) :
    ∃ t, takeTurns (List.replicate (runSteps K.length (if rw then filterWs K else K).length rw) .engine) s = .next t
      ∧ statusWord t = 2 ∧ readReg 5 t = hashOf K sd rw ∧ keySeq t = K := by
  obtain ⟨t, ht, hrun⟩ := takeTurns_engine (runSteps K.length (if rw then filterWs K else K).length rw) h.inv
  have idle : t.ph = .idle := stepsLeft_eq_zero_iff.mp (by rw [hrun.countdown, h.left, Nat.sub_self])
  obtain ⟨hdone, hhash⟩ := (hrun.keepsRun h.run).published idle
  exact ⟨t, ht, statusWord_done hrun.inv idle hdone (hrun.inputs.err.trans h.noErr), hhash,
    hrun.inputs.keySeq_eq.trans h.key⟩

/-- Settles O54: the head of a call leads to the state its START leaves, or to an error; each of these concludes the
call, whatever the order of the moves. -/
theorem callSequenceReturnsTheHash : Obligations.CallSequenceReturnsTheHash := by
  refine ⟨fun s keyArg seedArg rw key sd hI idle noErr hkey hsd fits => ?fits,
    fun s elements seedArg rw hI idle _ cause script hscript moves noReset => ?refused⟩
  case fits =>
    subst hkey hsd
    have holds : Holds s.config.keyCap (keySeq s) s.seed s := ⟨hI, idle, noErr, rfl, rfl, rfl⟩
    have leads := holds.leads_callHead keyArg seedArg rw fits
    refine ⟨?_, fun script hscript moves noReset => ?_⟩
    · obtain ⟨u, hu, started⟩ := leads.takeTurns
      obtain ⟨t, ht, published⟩ := started.completes
      exact ⟨t, (takeTurns_append hu).trans ht, published⟩
    · have inCall := leads.mono fun _ h => h.inCall
      obtain ⟨p, hp, hc, more⟩ := play_calling (InCall.concludes ..) hI (.of_script inCall hscript) noReset
      exact ⟨p, hp, fun ended => (hc.of_script_nil ended).2, more⟩
  case refused =>
    have leads := leads_refused hI idle cause seedArg rw
    obtain ⟨p, hp, hc, more⟩ := play_calling Refused.concludes hI (.of_script leads hscript) noReset
    refine ⟨p, hp, hc.refused_idle, fun ended => ?_, more⟩
    obtain ⟨refused, noValue⟩ := hc.of_script_nil ended
    exact ⟨refused.standing, noValue⟩

end Sys2Proof.Machine

/-! The error signal (spec/60_exceptions.md R202, R211): what raising an error does where one stands and where none
does, and which turns withdraw it. -/

namespace Sys2Proof.Machine

/-! ### Raising an error (R202) -/

theorem raiseErr_of_standing (c : ErrCode) {s : State} (standing : s.err = true) : raiseErr c s = s := if_pos standing

theorem raiseErr_of_noErr (c : ErrCode) {s : State} (noErr : s.err = false) :
    raiseErr c s = { s with err := true, errCode := c } := if_neg (Bool.eq_false_iff.mp noErr)

/-- Settles O36: the two cases of the operation. -/
theorem raisedErrorKeepsTheFirstCause : Obligations.RaisedErrorKeepsTheFirstCause := fun c _ =>
  ⟨raiseErr_of_standing c, raiseErr_of_noErr c⟩

/-! ### Withdrawing it (R211) -/

section
variable {i : Instr} {s t : State}

/-- Of the accepted writes only `clrerr` writes ERR. -/
theorem Accepted.clrerr_of_err_ne (h : Accepted i s t) (hne : t.err ≠ s.err) : i = .clrerr ∧ t = ackErr s := by
  obtain ⟨-, rfl⟩ | ⟨-, -, rfl⟩ | ⟨-, -, rfl⟩ | ⟨-, -, rfl⟩ | ⟨-, rfl⟩ | clrerr | ⟨v, -, rfl⟩ | ⟨b, -, -, rfl⟩ := h
  case inr.inr.inr.inr.inr.inl => exact clrerr
  all_goals exact absurd rfl hne

/-- A read keeps ERR and a refused write sets it, so a transaction that withdraws it is an accepted write. -/
theorem TransactionEffect.clrerr_of_err_withdrawn (h : TransactionEffect i s t) (standing : s.err = true)
    (withdrawn : t.err = false) : i = .clrerr ∧ s.ph = .idle ∧ t = ackErr s := by
  have hne : t.err ≠ s.err := by simp [standing, withdrawn]
  obtain ⟨-, v, rfl⟩ | ⟨-, c, -, -, -, rfl⟩ | ⟨-, idle, accepted⟩ := h
  · exact absurd rfl hne
  · exact absurd withdrawn Bool.noConfusion
  · obtain ⟨row, ht⟩ := accepted.clrerr_of_err_ne hne
    exact ⟨row, idle, ht⟩

/-- No engine rule writes ERR, so a row that withdraws it is a transaction. -/
theorem exec_clrerr_of_err_withdrawn (h : exec i s = .next t) (standing : s.err = true) (withdrawn : t.err = false) :
    i = .clrerr ∧ s.ph = .idle ∧ t = ackErr s := by
  cases hi : isTransaction i with
  | true => exact (execTransaction_cases hi h).clrerr_of_err_withdrawn standing withdrawn
  | false =>
    have kept : t.err = s.err := by rw [execEngine_frame hi h]
    simp [kept, standing] at withdrawn

end

/-- Settles O39: a turn is a reset or runs one row; the row that withdraws the error is `clrerr`, which is the host's,
and the state it leaves is `ackErr`'s. -/
theorem onlyClrerrWithdrawsTheError : Obligations.OnlyClrerrWithdrawsTheError := by
  intro turn s t h standing withdrawn
  obtain ⟨reset, -⟩ | ⟨i, runs, hx⟩ := takeTurn_cases h
  · exact .inl reset
  · obtain ⟨rfl, idle, ht⟩ := exec_clrerr_of_err_withdrawn hx standing withdrawn
    obtain ⟨tw, rfl, hd⟩ := runs.host_of_isTransaction rfl
    exact .inr ⟨tw, rfl, hd, idle, ht⟩

end Sys2Proof.Machine

/-! A host transaction beside an engine step (spec/70_reset_and_hazards.md R239): no engine rule reads the fields a
transaction may write in a run, so each completes as it would alone. -/

namespace Sys2Proof.Machine

/-! ### The fields a transaction may write in a run -/

/-- `s` with the error and the reply of `u`. -/
def reportOf (u s : State) : State := { s with err := u.err, errCode := u.errCode, reply := u.reply }

section
variable (u : State) {i : Instr} {s t : State}

/-! ### No engine rule reads them (R214) -/

theorem engineRule_reportOf : engineRule (reportOf u s) = engineRule s := rfl

theorem readByte_reportOf (sp : Space) (a : Nat) : readByte sp a (reportOf u s) = readByte sp a s := by
  cases sp <;> rfl

theorem srcChunk_reportOf : srcChunk (reportOf u s) = srcChunk s := by
  simp only [srcChunk, readWord, readByte_reportOf]
  rfl

theorem xorTailByte_reportOf (applies : Bool) (off sh : Nat) :
    xorTailByte applies off sh (reportOf u s) = xorTailByte applies off sh s := by
  funext h
  simp only [xorTailByte, readByte_reportOf]
  rfl

theorem tailXors_reportOf : tailXors (reportOf u s) = tailXors s := by
  simp only [tailXors, xorTailByte_reportOf]
  rfl

theorem exec_filtByte_reportOf (h : exec .filtByte s = .next t) :
    exec .filtByte (reportOf u s) = .next (reportOf u t) := by
  obtain ⟨hp, hj, b, hb, outcome⟩ := execFiltByte_cases h
  obtain ⟨-, hread⟩ := readByte_eq_some.mp hb
  rw [exec_filtByte_eq_filtKeep (s := reportOf u s) hp hj hread]
  obtain ⟨ws, rfl⟩ | ⟨keep, room, rfl⟩ := outcome
  · exact filtKeep_of_isWs (s := reportOf u s) hp ws
  · exact filtKeep_of_not_isWs (s := reportOf u s) hp keep room

theorem exec_bodyChunk_reportOf (h : exec .bodyChunk s = .next t) :
    exec .bodyChunk (reportOf u s) = .next (reportOf u t) := by
  obtain ⟨hp, hr, k, hk, rfl⟩ := execBodyChunk_cases h
  rw [exec, execBodyChunk, if_pos ⟨hp, hr⟩, srcChunk_reportOf, hk, ← hp]
  rfl

/-- What an engine rule does is the same with another error and another reply, which it leaves as they are. -/
theorem execEngine_reportOf (hi : isTransaction i = false) (h : exec i s = .next t) :
    exec i (reportOf u s) = .next (reportOf u t) := by
  cases i
  case idle => obtain ⟨hp, rfl⟩ := execIdle_cases h; exact if_pos hp
  case filtByte => exact exec_filtByte_reportOf u h
  case filtExit => obtain ⟨hp, hj, rfl⟩ := execFiltExit_cases h; exact if_pos ⟨hp, hj⟩
  case init => obtain ⟨hp, rfl⟩ := execInit_cases h; exact if_pos hp
  case bodyChunk => exact exec_bodyChunk_reportOf u h
  case bodyExit => obtain ⟨hp, hr, rfl⟩ := execBodyExit_cases h; exact if_pos ⟨hp, hr⟩
  case tail =>
    obtain ⟨hp, x, hx, rfl⟩ := execTail_cases h
    exact exec_tail (s := reportOf u s) hp ((tailXors_reportOf u).trans hx)
  case final => obtain ⟨hp, rfl⟩ := execFinal_cases h; exact if_pos hp
  all_goals cases hi

theorem engineTurn_reportOf (h : engineTurn s = .next t) : engineTurn (reportOf u s) = .next (reportOf u t) := by
  obtain ⟨⟨⟩, -⟩ | ⟨i, enabled | enabled, hx⟩ := takeTurn_cases (turn := .engine) h
  rw [engineTurn, engineRule_reportOf, enabled]
  exact execEngine_reportOf u (not_isTransaction_of_engineRule enabled) hx

end

/-! ### One edge (R239) -/

/-- Settles O45: in a run the transaction leaves the state before the edge but for the error and the reply, and from
there the engine takes the step it takes without the transaction. -/
theorem hostAndEngineCommute : Obligations.HostAndEngineCommute := by
  intro i s u t hi running hu ht
  have host : u = reportOf u s := hostLeavesARunAlone i s u hi running hu
  calc
    engineTurn u = engineTurn (reportOf u s) := congrArg engineTurn host
    _ = .next (reportOf u t) := engineTurn_reportOf u ht

end Sys2Proof.Machine

/-! Decoding of both formats (spec/30_encoding.md R75, R80): words of the opcode table, the labels of the phases, and
that every well-formed row is read back from its own word. -/

namespace Sys2Proof

/-- Settles O1: a finite check of nine fixed words, each decoded to the row the table gives it. -/
theorem tableWordsDecodeToTheirRows : Obligations.TableWordsDecodeToTheirRows := by
  unfold Obligations.TableWordsDecodeToTheirRows
  decide

/-- Settles O5: each label is compared with the ones before it. -/
theorem phaseLabelsNameTheirRules : Obligations.PhaseLabelsNameTheirRules :=
  ⟨rfl, rfl, rfl, rfl, rfl, rfl, fun _ => ⟨rfl, rfl, rfl, rfl, rfl, rfl⟩, rfl, rfl, rfl, rfl⟩

/-- R80: the label of an engine rule names it, its own loop test given beside the label. -/
theorem decodeCode_encode_of_engineRow {i : Instr} (hi : Machine.isTransaction i = false) :
    decodeCode (loopBody i) (encode i) = some i := by
  cases i
  case idle | filtByte | filtExit | init | bodyChunk | bodyExit | tail | final => rfl
  all_goals cases hi

/-- R75: a transaction's word decodes to the row, which is the one well-formed row that spells it. -/
theorem decodeCode_encode_of_isTransaction {i : Instr} (loop : Bool) (hi : Machine.isTransaction i = true)
    (wf : i.wf = true) : decodeCode loop (encode i) = some i := by
  obtain ⟨tw, hword⟩ := encode_eq_tw_of_isTransaction hi
  have spells : Spells i tw := ⟨wf, hword⟩
  rw [hword, decodeCode, spells.decodeTw_eq]

/-- Settles O3: the row is a transaction, spelled by a word, or an engine rule, named by a label. -/
theorem decodeOfEncodeIsTheInstruction : Obligations.DecodeOfEncodeIsTheInstruction := by
  intro i wf
  cases hi : Machine.isTransaction i with
  | true => exact decodeCode_encode_of_isTransaction _ hi wf
  | false => exact decodeCode_encode_of_engineRow hi

end Sys2Proof

/-! The step and the reset (spec/00_scope.md R9; spec/10_state.md sections 4, 8 and 9): which row a step runs, the values
after a reset, and that every step keeps the invariant. -/

namespace Sys2Proof.Machine

/-! ### The turn a step takes -/

section
variable {s : State} {rest : List Turn}

theorem step_of_agenda {turn : Turn} (h : s.agenda = turn :: rest) :
    step s = takeTurn turn { s with agenda := rest, reply := none } := by
  rw [step, nextTurn, popTurn, h]
  rfl

/-- With nothing in store the engine moves (log 5). -/
theorem step_of_agenda_nil (h : s.agenda = []) :
    step s = takeTurn .engine { s with agenda := [], reply := none } := by
  rw [step, nextTurn, popTurn, h]
  rfl

/-- The two ways the engine comes to its turn. -/
theorem step_engine (h : s.agenda = .engine :: rest ∨ (s.agenda = [] ∧ rest = [])) :
    step s = engineTurn { s with agenda := rest, reply := none } := by
  obtain h | ⟨h, rfl⟩ := h
  · exact step_of_agenda h
  · exact step_of_agenda_nil h

end

/-- Settles O6: the host's turn is exec of the decoded word. -/
theorem stepRunsTheDecodedTransaction : Obligations.StepRunsTheDecodedTransaction := by
  rintro s tw i rest h rfl
  exact step_of_agenda h

/-- Settles O7: the step is the engine's turn, and `ph` with the loop test says which rule that runs. -/
theorem stepRunsTheEnabledEngineRule : Obligations.StepRunsTheEnabledEngineRule := by
  intro s rest h
  rw [step_engine h]
  exact ⟨fun hp => engineTurn_idle hp, fun hp hj => engineTurn_filtByte hp hj, fun hp hj => engineTurn_filtExit hp hj,
    fun hp => engineTurn_init hp, fun hp hr => engineTurn_bodyChunk hp hr, fun hp hr => engineTurn_bodyExit hp hr,
    fun hp => engineTurn_tail hp, fun hp => engineTurn_final hp⟩

/-! ### Reset and the invariant (R40, R41, R230) -/

/-- Settles O9: the step is `resetEvent`, whose fields are R40's values and the capacity there was. -/
theorem resetOverwritesEveryState : Obligations.ResetOverwritesEveryState := fun _ _ h =>
  ⟨_, step_of_agenda h, rfl, rfl, rfl, rfl, rfl, rfl, rfl, rfl⟩

/-- With no error standing every cause that may stand does. -/
theorem StatusInv.of_noCause {s : State} (h : s.errCode = .none) : StatusInv s :=
  ⟨fun _ => .inl h, fun _ _ => by simp [h]⟩

/-- Settles O46: the reset state is what a reset leaves of itself, and no cause stands in it. -/
theorem resetMeetsTheInvariant : Obligations.ResetMeetsTheInvariant :=
  ⟨.resetEvent State.reset, .of_noCause rfl⟩

/-- Settles O47: taking the turn off the agenda keeps the invariant, and so does the turn. -/
theorem stepKeepsTheInvariant : Obligations.StepKeepsTheInvariant := fun _ _ hI h => hI.popTurn.of_takeTurn h

/-! ### Errors come from writes (R200, R210) -/

/-- A transaction that raises the error is a write, refused with one of the five causes. -/
theorem TransactionEffect.refused_of_err_raised {i : Instr} {s t : State} (h : TransactionEffect i s t)
    (noErr : s.err = false) (raised : t.err = true) :
    isRead i = false ∧ ∃ c, c ≠ .none ∧ t = { s with err := true, errCode := c } := by
  have hne : t.err ≠ s.err := by simp [noErr, raised]
  obtain ⟨-, v, rfl⟩ | ⟨write, c, hc, -, -, rfl⟩ | ⟨-, -, accepted⟩ := h
  · exact absurd rfl hne
  · exact ⟨write, c, hc, by rw [← raiseErr_eq_withError, raiseErr_of_noErr c noErr]⟩
  · obtain ⟨-, rfl⟩ := accepted.clrerr_of_err_ne hne
    cases raised

/-- Settles O40: no engine rule writes ERR, and a transaction that raises it is a refused write. -/
theorem errorsArePreciseAndComeFromWrites : Obligations.ErrorsArePreciseAndComeFromWrites := by
  intro i s t h noErr raised
  cases hi : isTransaction i with
  | true =>
    obtain ⟨write, c, hc, rfl⟩ := (execTransaction_cases hi h).refused_of_err_raised noErr raised
    exact ⟨rfl, write, hc, rfl⟩
  | false =>
    have kept : t.err = s.err := by rw [execEngine_frame hi h]
    simp [kept, noErr] at raised

/-! ### The causes that can stand (spec/95_test_vectors.md section 5.1) -/

section
variable {s t : State}

/-- The condition reads `ph`, DONE and ERRCODE only. -/
theorem StatusInv.congr (h : StatusInv s) (hph : t.ph = s.ph) (hdone : t.done = s.done)
    (hcode : t.errCode = s.errCode) : StatusInv t := by
  rw [StatusInv, hph, hdone, hcode]
  exact h

/-- A cause is raised as R162 orders its tests: BUSY_WRITE in a run only, and there no other but BAD_ACCESS. -/
theorem StatusInv.withError {c : ErrCode} (h : StatusInv s) (inRun : s.ph ≠ .idle → c = .busyWrite ∨ c = .badAccess)
    (inIdle : s.ph = .idle → c ≠ .busyWrite) : StatusInv (withError c s) := by
  cases standing : s.err with
  | true =>
    rw [← raiseErr_eq_withError, raiseErr_of_standing c standing]
    exact h
  | false =>
    rw [← raiseErr_eq_withError, raiseErr_of_noErr c standing]
    exact ⟨fun running => .inr (inRun running), fun idle _ => inIdle idle⟩

theorem StatusInv.of_accepted {i : Instr} (hI : MachineInv s) (h : StatusInv s) (accepted : Accepted i s t) :
    StatusInv t := by
  obtain ⟨-, rfl⟩ | ⟨-, -, rfl⟩ | ⟨-, noErr, rfl⟩ | ⟨-, noErr, rfl⟩ | ⟨-, rfl⟩ | ⟨-, rfl⟩ | ⟨v, -, rfl⟩
    | ⟨b, -, -, rfl⟩ := accepted
  · exact h
  · exact h
  · exact .of_noCause (hI.errIff.mp noErr)
  · exact .of_noCause (hI.errIff.mp noErr)
  · exact h.congr rfl rfl rfl
  · exact .of_noCause rfl
  · exact h.congr rfl rfl rfl
  · exact h.congr rfl rfl rfl

theorem StatusInv.of_transaction {i : Instr} (hI : MachineInv s) (h : StatusInv s) (effect : TransactionEffect i s t) :
    StatusInv t := by
  obtain ⟨-, v, rfl⟩ | ⟨-, c, -, inRun, inIdle, rfl⟩ | ⟨-, -, accepted⟩ := effect
  · exact h.congr rfl rfl rfl
  · exact h.withError inRun inIdle
  · exact h.of_accepted hI accepted

theorem errCode_of_engineTurn (h : engineTurn s = .next t) : t.errCode = s.errCode := by
  obtain ⟨⟨⟩, -⟩ | ⟨i, enabled | enabled, hx⟩ := takeTurn_cases (turn := .engine) h
  rw [execEngine_frame (not_isTransaction_of_engineRule enabled) hx]

/-- A run's causes stay, and where it ends DONE is set beside them. -/
theorem StatusInv.of_engineTurn (hI : MachineInv s) (h : StatusInv s) (ht : engineTurn s = .next t) : StatusInv t := by
  by_cases idle : s.ph = .idle
  · rw [engineTurn_idle_eq idle] at ht
    cases ht
    exact h
  · have published := (hI.runStep_engineTurn idle ht).published
    obtain ⟨inRun, -⟩ := h
    rw [StatusInv, errCode_of_engineTurn ht]
    exact ⟨fun _ => inRun idle, fun ended notDone => absurd (notDone.symm.trans (published ended)) Bool.noConfusion⟩

theorem StatusInv.of_takeTurn {turn : Turn} (hI : MachineInv s) (h : StatusInv s) (ht : takeTurn turn s = .next t) :
    StatusInv t := by
  cases turn with
  | host tw => exact h.of_transaction hI (execTransaction_cases (isTransaction_decodeTw tw) ht)
  | engine => exact h.of_engineTurn hI ht
  | reset => cases ht; exact .of_noCause rfl

/-! ### The fourteen STATUS words -/

/-- STATUS from its cause, DONE and BUSY: ERR stands exactly with a cause (item 3 of R41). -/
def statusOf (code : ErrCode) (done busy : Bool) : Word :=
  (0 : BitVec 24) ++ errNumber code ++ (0 : BitVec 1) ++ BitVec.ofBool (decide (code ≠ .none)) ++ BitVec.ofBool done
    ++ BitVec.ofBool busy

theorem MachineInv.statusWord_eq (hI : MachineInv s) : statusWord s = statusOf s.errCode s.done (busy s) := by
  have herr : s.err = decide (s.errCode ≠ .none) := by
    cases standing : s.err with
    | false => simp [hI.errIff.mp standing]
    | true =>
      have cause : s.errCode ≠ .none := fun hnone => by simp [hI.errIff.mpr hnone] at standing
      simp [cause]
  rw [statusWord, herr, statusOf]

/-- In IDLE with DONE, every cause or none: six words. -/
theorem statusOf_done_mem (code : ErrCode) : statusOf code true false ∈ statusWords := by
  cases code <;> decide

/-- In IDLE without DONE, every cause but BUSY_WRITE: five words. -/
theorem statusOf_notDone_mem {code : ErrCode} (h : code ≠ .busyWrite) : statusOf code false false ∈ statusWords := by
  cases code
  case busyWrite => exact absurd rfl h
  all_goals decide

/-- In a run, BUSY_WRITE, BAD_ACCESS or no cause: three words. -/
theorem statusOf_busy_mem {code : ErrCode} (h : code = .none ∨ code = .busyWrite ∨ code = .badAccess) :
    statusOf code false true ∈ statusWords := by
  obtain rfl | rfl | rfl := h <;> decide

theorem MachineInv.statusWord_mem (hI : MachineInv s) (h : StatusInv s) : statusWord s ∈ statusWords := by
  obtain ⟨inRun, inIdle⟩ := h
  rw [hI.statusWord_eq]
  by_cases idle : s.ph = .idle
  · rw [busy_eq_false idle]
    cases hdone : s.done with
    | true => exact statusOf_done_mem _
    | false => exact statusOf_notDone_mem (inIdle idle hdone)
  · have notDone : s.done = false := Bool.eq_false_iff.mpr fun hdone => idle (hI.doneIdle hdone)
    rw [busy_eq_true idle, notDone]
    exact statusOf_busy_mem (inRun idle)

end

/-- Settles O50: every turn keeps the condition on causes, and with the invariant it leaves six words in IDLE with DONE,
five in IDLE without and three in a run. -/
theorem statusTakesFourteenValues : Obligations.StatusTakesFourteenValues := by
  refine ⟨fun s t hI h hstep => ?_, fun s hI h => hI.statusWord_mem h⟩
  have popped : StatusInv (popTurn s) := h.congr rfl rfl rfl
  exact popped.of_takeTurn hI.popTurn hstep

end Sys2Proof.Machine
